-- ==== Sys2Proof/Word.lean ====
section
/-! DEFINITION. The words of the unit: the 32-bit command word (30_encoding.md R59), the W-bit data word
(00_scope.md R5, R9) and the 4-bit response code (20_memory.md R47). -/

namespace Sys2Proof

/-- The command word `cmd` of a transaction: 32 bits, bit `i` being bit `i` of the encoding (R50, R59). -/
abbrev CmdWord := BitVec 32

/-- A W-bit data word: a register, `din` or `dout` (R5, R47). -/
abbrev Word (W : Nat) := BitVec W

/-- The response code `resp`: 0 is success (R47, R122). -/
abbrev RespCode := BitVec 4

end Sys2Proof
end

