-- ==== Sys2Proof/Syntax.lean ====
section
/-! DEFINITION. The commands: one constructor per row of spec/opcode_table.json (30_encoding.md R63). -/

namespace Sys2Proof

/-- A command of the set `SLMRU-1`. Only RD and WR have a register operand, an unsigned index (R61); every other
command's operands are implicit. -/
inductive Instr where
  /-- NOP (40_host_access.md R76). -/
  | nop
  /-- RD (R77). -/
  | rd (reg : Nat)
  /-- WR (R78). The value written is the transaction's `din` (R62). -/
  | wr (reg : Nat)
  /-- CLR_ERR (R79). -/
  | clrErr
  /-- PM_STEP (41_parkmiller.md R82). -/
  | pmStep
  /-- LEC_STEP (42_lecuyer.md R86). -/
  | lecStep
  /-- LCG_STEP (43_lcg.md R91). -/
  | lcgStep
  /-- BBS_INIT (44_bbs.md R96). -/
  | bbsInit
  /-- BBS_DRAW (R97). -/
  | bbsDraw
  /-- BBS_BIT (R100). -/
  | bbsBit
  /-- BBS_EMIT (R102). -/
  | bbsEmit
  /-- BBS_NEXT (R104). -/
  | bbsNext
deriving DecidableEq, Repr

end Sys2Proof
end

