-- ==== Sys2Proof/WellFormed.lean ====
section
/-! DEFINITION. Which commands the encoding can express: the register operand is an index `0 .. 31`
(30_encoding.md R60, R61). An index that names no register is well formed: it "is a legal word" (R64). -/

namespace Sys2Proof

/-- The register operand, where the command has one (R61). -/
def Instr.regOperand : Instr → Option Nat
  | .rd reg => some reg
  | .wr reg => some reg
  | .nop => none
  | .clrErr => none
  | .pmStep => none
  | .lecStep => none
  | .lcgStep => none
  | .bbsInit => none
  | .bbsDraw => none
  | .bbsBit => none
  | .bbsEmit => none
  | .bbsNext => none

/-- A command is well formed when its register operand, if any, fits the 5-bit field REG (R60, R61). -/
def Instr.wellFormed (i : Instr) : Bool :=
  match i.regOperand with
  | some reg => decide (reg < 32)
  | none => true

end Sys2Proof
end

