-- ==== Sys2Proof/Decode.lean ====
section
/-! DEFINITION. The decoder of 30_encoding.md R64 and the encoder of R60 and R63. A command word arrives as one
32-bit value (20_memory.md R50), so there is no byte order and no length to determine (R59). -/

namespace Sys2Proof

/-- Why a command word is illegal (R64). Each one makes the transaction fault ILLEGAL_COMMAND. -/
inductive DecodeError where
  /-- `w[31:26]` is no assigned OP of R63. -/
  | unassignedOpcode
  /-- `w[20:0]` is not 0. -/
  | zeroFieldNotZero
  /-- `w[25:21]` is not 0 in a command other than RD and WR. -/
  | registerFieldNotZero
deriving DecidableEq, Repr

/-- The field OP, bits 31:26 (R60). -/
def opField (w : CmdWord) : Nat := (w.extractLsb' 26 6).toNat

/-- The field REG, bits 25:21, an unsigned index (R60, R61). -/
def regField (w : CmdWord) : Nat := (w.extractLsb' 21 5).toNat

/-- The reserved field ZERO, bits 20:0 (R60). -/
def zeroField (w : CmdWord) : Nat := (w.extractLsb' 0 21).toNat

/-- The opcode map R63: the command of an assigned OP, given the field REG. -/
def commandOf (op reg : Nat) : Option Instr :=
  match op with
  | 0x00 => some .nop
  | 0x01 => some (.rd reg)
  | 0x02 => some (.wr reg)
  | 0x03 => some .clrErr
  | 0x08 => some .pmStep
  | 0x0C => some .lecStep
  | 0x10 => some .lcgStep
  | 0x14 => some .bbsInit
  | 0x15 => some .bbsDraw
  | 0x16 => some .bbsBit
  | 0x17 => some .bbsEmit
  | 0x18 => some .bbsNext
  | _ => none

/-- `decode` of R64, its three checks in the order of R64's pseudocode. Total on all words. -/
def decode (w : CmdWord) : Except DecodeError Instr :=
  match commandOf (opField w) (regField w) with
  | none => .error .unassignedOpcode
  | some i =>
    if zeroField w ≠ 0 then .error .zeroFieldNotZero
    else if i.regOperand = none ∧ regField w ≠ 0 then .error .registerFieldNotZero
    else .ok i

/-- The opcode of a command (R63). -/
def opcodeOf : Instr → BitVec 6
  | .nop => 0x00
  | .rd _ => 0x01
  | .wr _ => 0x02
  | .clrErr => 0x03
  | .pmStep => 0x08
  | .lecStep => 0x0C
  | .lcgStep => 0x10
  | .bbsInit => 0x14
  | .bbsDraw => 0x15
  | .bbsBit => 0x16
  | .bbsEmit => 0x17
  | .bbsNext => 0x18

/-- The command word of a command: OP, then REG (0 where there is no register operand), then 21 zero bits
(R60, R63). -/
def encode (i : Instr) : CmdWord :=
  opcodeOf i ++ BitVec.ofNat 5 (i.regOperand.getD 0) ++ 0#21

/-- The command word that a table row's `nbits` bits `w` make, every bit above `nbits` being 0. -/
def commandWord (nbits w : Nat) : CmdWord := BitVec.ofNat 32 (w % 2 ^ nbits)

/-- The command this decoder reads from a word given as spec/opcode_table.json numbers its bits: bit 0 is the least
significant bit, and a command is one 32-bit word (R59, R60). -/
def decodeTableWord (nbits w : Nat) : Option Instr :=
  match decode (commandWord nbits w) with
  | .ok i => some i
  | .error _ => none

end Sys2Proof
end

