-- ==== Sys2Proof/Config.lean ====
section
/-! DEFINITION. What an implementation fixes: the one width parameter `W` (00_scope.md R5). The platform's
parameters HOST_ARBITRATION, HOST_BEAT_MAP and HOST_PORT_BASE have no effect inside the unit
(92_eei_decisions.md, log 11). Every result of the unit is defined
(45_sequence_contracts.md R114); the one free value stands for the writing of an integer no run writes (log 7). -/

namespace Sys2Proof.Config

/-- The width parameter `W` with its legal range: "Legal values are `64 <= W <= 65535`" (R5). -/
structure Width where
  bits : Nat
  ge_64 : 64 ≤ bits
  le_65535 : bits ≤ 65535
deriving DecidableEq, Repr

/-- "The spec's default is `W = 128`" (R5). -/
def Width.default : Width := ⟨128, by decide, by decide⟩

/-- The least legal width (R5), at which 95_test_vectors.md gives some of its vectors. -/
def Width.least : Width := ⟨64, by decide, by decide⟩

/-- The greatest legal width (R5). -/
def Width.greatest : Width := ⟨65535, by decide, by decide⟩

/-- The free value that stands for `bits_W(v)` where `v` is outside the signed range, for which `bits_W` is not
defined (R9). No run from reset writes such an integer. DESIGN CHOICE, log 7; safe: nothing constrains it. -/
opaque undefinedBits (W : Nat) (v : Int) : Word W

end Sys2Proof.Config
end

