-- ==== Sys2Proof/Machine/State.lean ====
section
/-! DEFINITION. The state of the unit (10_state.md R18, R19), the host's moves (45_sequence_contracts.md R116) and
the reset state (70_reset_and_hazards.md R144). Plain data throughout. -/

namespace Sys2Proof.Machine

open Sys2Proof.Config (Width)

/-- The 17 register names of the register map (R19). -/
inductive RegName where
  | status | id | res | pmX | lecX1 | lecX2 | lcgA | lcgC | lcgM | lcgX
  | bbsP | bbsQ | bbsX | bbsM | bbsAcc | bbsCnt | bbsLen
deriving DecidableEq, Repr

/-- The registers of a unit of width `W` (R18, R19). ID is a constant of the width (R24) and is computed where
registers are read (log 6); the other 16 are stored. -/
structure Regs (W : Nat) where
  /-- Index 0x00: ERR in bits 3:0, BBS_ARMED in bit 4, the rest reserved (R21). -/
  status : Word W
  /-- Index 0x02: the last output value (R25). -/
  res : Word W
  /-- Index 0x04: the Park-Miller state (R26). -/
  pmX : Word W
  /-- Index 0x05: the first L'Ecuyer stream (R27). -/
  lecX1 : Word W
  /-- Index 0x06: the second L'Ecuyer stream (R28). -/
  lecX2 : Word W
  /-- Index 0x07: the LCG multiplier (R29). -/
  lcgA : Word W
  /-- Index 0x08: the LCG increment (R29). -/
  lcgC : Word W
  /-- Index 0x09: the LCG modulus (R30). -/
  lcgM : Word W
  /-- Index 0x0A: the LCG state (R31). -/
  lcgX : Word W
  /-- Index 0x0B: the BBS factor `p` (R32). -/
  bbsP : Word W
  /-- Index 0x0C: the BBS factor `q` (R32). -/
  bbsQ : Word W
  /-- Index 0x0D: the BBS state (R33). -/
  bbsX : Word W
  /-- Index 0x0E: the Blum modulus (R34). -/
  bbsM : Word W
  /-- Index 0x0F: the bit accumulator (R35). -/
  bbsAcc : Word W
  /-- Index 0x10: the bits still to be generated (R36). -/
  bbsCnt : Word W
  /-- Index 0x11: the length drawn (R37). -/
  bbsLen : Word W
deriving DecidableEq, Repr

/-- A move of the host on the port (R47, R116). -/
inductive HostMove (W : Nat) where
  /-- A transaction: the command word and the data word. -/
  | transaction (cmd : CmdWord) (din : Word W)
  /-- The reset input, asserted between transactions (R144, R148). -/
  | reset
deriving DecidableEq, Repr

/-- What the unit returns for one transaction (R47). -/
structure Response (W : Nat) where
  resp : RespCode
  dout : Word W
deriving DecidableEq, Repr

/-- The machine: a unit of some width, with the host's pending moves and the responses it has had. -/
structure State where
  /-- The parameter `W` (R5). No step changes it (log 1). -/
  width : Width
  /-- The registers (R18). -/
  regs : Regs width.bits
  /-- The host's moves still to be made, first one first (R49, R116; log 2). -/
  todo : List (HostMove width.bits)
  /-- The responses returned so far, oldest first: the observation of R117 (log 3). -/
  answered : List (Response width.bits)
deriving DecidableEq, Repr

/-- The fault codes of 60_exceptions.md R122. A fault is an architectural response after which the unit keeps
running (R129, R141), so no step of this model ever STOPS with one: each is delivered as `resp` by
`State.takeFault`, in a next state (log 8; safe). -/
inductive Fault where
  /-- Code 1, raised by the decode of an illegal word (R64). -/
  | illegalCommand
  /-- Code 2, raised by RD and WR of an unimplemented index (R77, R78). -/
  | badRegister
  /-- Code 3, raised by WR of a read-only register (R78). -/
  | readOnly
  /-- Code 4, raised by LCG_STEP when `LCG_M <= 0` (R91). -/
  | lcgModulus
  /-- Code 5, raised by BBS_INIT when `BBS_P = BBS_Q` (R96). -/
  | bbsEqualPrimes
  /-- Code 6, raised by BBS_INIT when `BBS_P * BBS_Q <= 0` (R96). -/
  | bbsModulus
  /-- Code 7, raised by BBS_INIT when `BBS_P * BBS_Q >= 2^(W-1)` (R96). -/
  | bbsCapacity
  /-- Code 8, raised by BBS_DRAW, BBS_BIT and BBS_NEXT when `BBS_M <= 0` (R97, R100, R104). -/
  | bbsNotConfigured
  /-- Code 9, raised by BBS_DRAW, BBS_BIT, BBS_EMIT and BBS_NEXT in the wrong iterator state (R97 to R104). -/
  | bbsSequence
deriving DecidableEq, Repr

/-- Why the model gives a command no meaning. -/
inductive Refusal where
  /-- A command with no meaning yet, answered only by an arm of `exec`. No arm answers it: all twelve commands are
  modelled (safe). -/
  | notModelled (mnemonic : String)
deriving DecidableEq, Repr

/-- The reset values of the registers: all 0 (R144). -/
def Regs.reset (W : Nat) : Regs W :=
  { status := 0#W, res := 0#W, pmX := 0#W, lecX1 := 0#W, lecX2 := 0#W, lcgA := 0#W, lcgC := 0#W, lcgM := 0#W,
    lcgX := 0#W, bbsP := 0#W, bbsQ := 0#W, bbsX := 0#W, bbsM := 0#W, bbsAcc := 0#W, bbsCnt := 0#W, bbsLen := 0#W }

/-- The reset state of a unit of width `w` (R144): the host has made no move yet (R145). -/
def State.resetAt (w : Width) : State :=
  { width := w, regs := Regs.reset w.bits, todo := [], answered := [] }

/-- The reset state at the spec's default width 128 (R5, R144). -/
def State.reset : State := State.resetAt Width.default

end Sys2Proof.Machine
end

