-- ==== Sys2Proof/Machine/Flags.lean ====
section
/-! DEFINITION. The status bits (10_state.md R21, R22, R23) and the fault codes (60_exceptions.md R122). The unit has
no condition codes, carry or overflow flags (R39). -/

namespace Sys2Proof.Machine

/-- The 4-bit code of a fault (R122). Code 0 is OK; codes 10 to 15 are never produced. -/
def Fault.code : Fault → RespCode
  | .illegalCommand => 1
  | .badRegister => 2
  | .readOnly => 3
  | .lcgModulus => 4
  | .bbsEqualPrimes => 5
  | .bbsModulus => 6
  | .bbsCapacity => 7
  | .bbsNotConfigured => 8
  | .bbsSequence => 9

/-- STATUS.ERR, bits 3:0 (R21). -/
def Regs.err {W : Nat} (r : Regs W) : RespCode := r.status.extractLsb' 0 4

/-- STATUS.BBS_ARMED, bit 4 (R21). -/
def Regs.armed {W : Nat} (r : Regs W) : Bool := r.status.getLsbD 4

/-- STATUS.ERR <- c: bits 3:0 replaced, every other bit kept (R21). -/
def Regs.setErr {W : Nat} (r : Regs W) (c : RespCode) : Regs W :=
  { r with status := (r.status &&& ~~~((BitVec.allOnes 4).setWidth W)) ||| c.setWidth W }

/-- STATUS.BBS_ARMED <- b: bit 4 replaced, every other bit kept (R21, R23). -/
def Regs.setArmed {W : Nat} (r : Regs W) (b : Bool) : Regs W :=
  { r with status := if b then r.status ||| BitVec.twoPow W 4 else r.status &&& ~~~(BitVec.twoPow W 4) }

/-- The sticky record of a fault code: STATUS.ERR is written only when it is 0 (R22, R126). -/
def Regs.recordFault {W : Nat} (r : Regs W) (c : RespCode) : Regs W :=
  if r.err = 0 then r.setErr c else r

end Sys2Proof.Machine
end

