-- ==== Sys2Proof/Machine/Operands.lean ====
section
/-! DEFINITION. The operand forms: how a register's bits are read as an integer and written back (00_scope.md R9, R11,
R15), the division operations (R10), and the register map with its access rights (10_state.md R19). -/

namespace Sys2Proof.Machine

open Sys2Proof.Config (Width)

/-- `sint_W(b)`: the pattern read as a two's-complement integer (R9). -/
def sint {W : Nat} (b : Word W) : Int := b.toInt

/-- `uint_W(b)`: the pattern read as an unsigned integer (R9). -/
def uint {W : Nat} (b : Word W) : Int := b.toNat

/-- `bits_W(v)`: the W-bit two's-complement pattern of `v`, for `v` in the signed range (R9). Every rule writes values
in that range; outside it (states no run reaches) the pattern is a free value. DESIGN CHOICE, log 7. -/
def bits (W : Nat) (v : Int) : Word W :=
  if -((2 ^ (W - 1) : Nat) : Int) ≤ v ∧ v < ((2 ^ (W - 1) : Nat) : Int) then BitVec.ofInt W v
  else Config.undefinedBits W v

/-- `floor_div(x, y)`: the greatest integer `k` with `k * y <= x`, for `y > 0` (R10). No command divides by anything
else (R130, log 14). -/
def floorDiv (x y : Int) : Int := Int.fdiv x y

/-- `floor_mod(x, y) = x - y * floor_div(x, y)` (R10). -/
def floorMod (x y : Int) : Int := x - y * floorDiv x y

/-- The register map R19: the register at an index, none where the index is unimplemented (0x03 and 0x12 up). -/
def RegName.ofIndex : Nat → Option RegName
  | 0x00 => some .status
  | 0x01 => some .id
  | 0x02 => some .res
  | 0x04 => some .pmX
  | 0x05 => some .lecX1
  | 0x06 => some .lecX2
  | 0x07 => some .lcgA
  | 0x08 => some .lcgC
  | 0x09 => some .lcgM
  | 0x0A => some .lcgX
  | 0x0B => some .bbsP
  | 0x0C => some .bbsQ
  | 0x0D => some .bbsX
  | 0x0E => some .bbsM
  | 0x0F => some .bbsAcc
  | 0x10 => some .bbsCnt
  | 0x11 => some .bbsLen
  | _ => none

/-- The index of a register (R19). -/
def RegName.index : RegName → Nat
  | .status => 0x00
  | .id => 0x01
  | .res => 0x02
  | .pmX => 0x04
  | .lecX1 => 0x05
  | .lecX2 => 0x06
  | .lcgA => 0x07
  | .lcgC => 0x08
  | .lcgM => 0x09
  | .lcgX => 0x0A
  | .bbsP => 0x0B
  | .bbsQ => 0x0C
  | .bbsX => 0x0D
  | .bbsM => 0x0E
  | .bbsAcc => 0x0F
  | .bbsCnt => 0x10
  | .bbsLen => 0x11

/-- The access column of R19: true for RO, on which WR faults READ_ONLY. -/
def RegName.readOnly : RegName → Bool
  | .status => true
  | .id => true
  | .res => true
  | .pmX => false
  | .lecX1 => false
  | .lecX2 => false
  | .lcgA => false
  | .lcgC => false
  | .lcgM => false
  | .lcgX => false
  | .bbsP => false
  | .bbsQ => false
  | .bbsX => false
  | .bbsM => true
  | .bbsAcc => true
  | .bbsCnt => true
  | .bbsLen => true

/-- The constant of the ID register, `(1 << 16) | W`: the version 1 in bits 23:16 and `W` in bits 15:0 (R24). -/
def idWord (W : Nat) : Word W := BitVec.ofNat W ((1 <<< 16) ||| W)

/-- The pattern a register holds, ID being hard-wired (R19, R24). -/
def Regs.read {W : Nat} (r : Regs W) : RegName → Word W
  | .status => r.status
  | .id => idWord W
  | .res => r.res
  | .pmX => r.pmX
  | .lecX1 => r.lecX1
  | .lecX2 => r.lecX2
  | .lcgA => r.lcgA
  | .lcgC => r.lcgC
  | .lcgM => r.lcgM
  | .lcgX => r.lcgX
  | .bbsP => r.bbsP
  | .bbsQ => r.bbsQ
  | .bbsX => r.bbsX
  | .bbsM => r.bbsM
  | .bbsAcc => r.bbsAcc
  | .bbsCnt => r.bbsCnt
  | .bbsLen => r.bbsLen

/-- A host write of a pattern to a RW register, bit for bit (R78). A read-only register takes no host write: WR
faults before it reaches here. -/
def Regs.write {W : Nat} (r : Regs W) (n : RegName) (v : Word W) : Regs W :=
  match n with
  | .pmX => { r with pmX := v }
  | .lecX1 => { r with lecX1 := v }
  | .lecX2 => { r with lecX2 := v }
  | .lcgA => { r with lcgA := v }
  | .lcgC => { r with lcgC := v }
  | .lcgM => { r with lcgM := v }
  | .lcgX => { r with lcgX := v }
  | .bbsP => { r with bbsP := v }
  | .bbsQ => { r with bbsQ := v }
  | .bbsX => { r with bbsX := v }
  | .status => r
  | .id => r
  | .res => r
  | .bbsM => r
  | .bbsAcc => r
  | .bbsCnt => r
  | .bbsLen => r

/-- `W` as a number (R5). -/
abbrev State.W (s : State) : Nat := s.width.bits

/-- `din` of the transaction on the port: the first pending move (R47, R49). With no transaction there the model
reads 0. DESIGN CHOICE, log 4: `step` executes a command only for a transaction. -/
def State.din (s : State) : Word s.W :=
  match s.todo with
  | .transaction _ d :: _ => d
  | .reset :: _ => 0#s.W
  | [] => 0#s.W

end Sys2Proof.Machine
end

