-- ==== Sys2Proof/Machine/Ops.lean ====
section
/-! DEFINITION. What ends a transaction: its response (20_memory.md R47, R48, R52), the taking of a fault
(60_exceptions.md R126) and its clearing (40_host_access.md R79); the reset (70_reset_and_hazards.md R144); and the
placing of a transaction on the port. -/

namespace Sys2Proof.Machine

/-- The end of the transaction on the port: the registers become `r`, the pair `(resp, dout)` is returned, and the
host's next move comes up (R47, R48, R49). Every command ends through here, so it is one atomic step. -/
def State.respond (s : State) (r : Regs s.W) (resp : RespCode) (dout : Word s.W) : State :=
  { s with regs := r, todo := s.todo.tail, answered := s.answered ++ [⟨resp, dout⟩] }

/-- Success: `resp = 0` with the command's `dout` (R47, R52). -/
def State.complete (s : State) (r : Regs s.W) (dout : Word s.W) : State := s.respond r 0 dout

/-- The taking of a fault (R126): `resp` is its code, `dout` is 0, the code goes to STATUS.ERR if that was 0, and no
other register changes. There is no vector, no saved state and no handler inside the unit. -/
def State.takeFault (s : State) (c : Fault) : State := s.respond (s.regs.recordFault c.code) c.code 0#s.W

/-- What a command makes of the registers: the registers and the `dout` of success, or a fault. Every check of a
command runs before its first write, so a fault carries no registers (R126). -/
abbrev Effect (W : Nat) := Except Fault (Regs W × Word W)

/-- The end of a transaction whose command has this effect: success, or the taking of the fault. -/
def State.conclude (s : State) (e : Effect s.W) : State :=
  match e with
  | .ok x => s.complete x.1 x.2
  | .error f => s.takeFault f

/-- What undoes a fault's record: STATUS.ERR <- 0 (R79). The unit has no return from a fault (R129); only this and
reset clear the record. -/
def Regs.clearErr {W : Nat} (r : Regs W) : Regs W := r.setErr 0

/-- The reset move (R144): every register to its reset value, ID unaffected. It is no transaction and has no
response; it is the host's move, so it comes off the pending list. -/
def State.takeReset (s : State) : State := { s with regs := Regs.reset s.W, todo := s.todo.tail }

/-- An illegal word's transaction faults ILLEGAL_COMMAND before any other check, whichever of R64's three conditions
fails. -/
def State.rejectWord (s : State) (e : DecodeError) : State :=
  match e with
  | .unassignedOpcode => s.takeFault .illegalCommand
  | .zeroFieldNotZero => s.takeFault .illegalCommand
  | .registerFieldNotZero => s.takeFault .illegalCommand

/-- Put a transaction on the port, before the moves already pending. -/
def State.issue (s : State) (cmd : CmdWord) (din : Word s.W) : State :=
  { s with todo := .transaction cmd din :: s.todo }

end Sys2Proof.Machine
end

