-- ==== Sys2Proof/Machine/ParkMiller.lean ====
section
/-! DEFINITION. The Schrage primitive (41_parkmiller.md R81) with its two constant sets (00_scope.md R6, R7), and
PM_STEP (R82). -/

namespace Sys2Proof.Machine

/-- The Schrage primitive, step for step as R81 writes it: one correction only, and none when `t = 0`. It is NOT
`floor_mod(a * x, m)` for every `x` (R83). -/
def schrage (a m q r x : Int) : Int :=
  let hi := floorDiv x q
  let lo := x - q * hi
  let t := a * lo - r * hi
  if t < 0 then t + m else t

/-- `m1 = 2^31 - 1` (R6). -/
def m1 : Int := 2147483647

/-- `m2 = 2^29 - 1` (R7). -/
def m2 : Int := 536870911

/-- `schrage1`: constant set 1, `a1 = 16807`, `q1 = 127773`, `r1 = 2836` (R6, R81). -/
def schrage1 (x : Int) : Int := schrage 16807 m1 127773 2836 x

/-- `schrage2`: constant set 2, `a2 = 48271`, `q2 = 11122`, `r2 = 849` (R7, R81). -/
def schrage2 (x : Int) : Int := schrage 48271 m2 11122 849 x

/-- PM_STEP: `y = schrage1(PM_X)` to PM_X, RES and `dout`; no check and no fault (R82). -/
def pmStepEffect {W : Nat} (r : Regs W) : Effect W :=
  let y := bits W (schrage1 (sint r.pmX))
  .ok ({ r with pmX := y, res := y }, y)

/-- PM_STEP (R82). -/
def execPmStep (s : State) : Host.Outcome State Fault Refusal := .next (s.conclude (pmStepEffect s.regs))

end Sys2Proof.Machine
end

