-- ==== Sys2Proof/Machine/Bbs.lean ====
section
/-! DEFINITION. The BBS quadratic-residue iterator (44_bbs.md R96 to R104). -/

namespace Sys2Proof.Machine

/-- One squaring of the state: `floor_mod(x * x, m)` with the exact square (R96, R100, R107). -/
def bbsSquare (m x : Int) : Int := floorMod (x * x) m

/-- The length draw: a fresh Park-Miller evaluation of the full BBS state, reduced modulo 30 (R97, R98). -/
def bbsDrawLength (x : Int) : Int := floorMod (schrage1 x) 30

/-- The low bit of a state (R100). -/
def bbsLowBit (x : Int) : Int := floorMod x 2

/-- The loop of BBS_NEXT (R104): `n` squarings of the state `x`, each new state's low bit shifted into `acc`, the
first bit ending most significant. It answers the last state and the accumulator. -/
def bbsCollect (m : Int) : Nat → Int → Int → Int × Int
  | 0, x, acc => (x, acc)
  | n + 1, x, acc =>
    let x' := bbsSquare m x
    bbsCollect m n x' (2 * acc + bbsLowBit x')

/-- BBS_INIT: the three checks in R96's order, then the modulus, the squared seed, and the iterator IDLE. -/
def bbsInitEffect {W : Nat} (r : Regs W) : Effect W :=
  let p := sint r.bbsP
  let q := sint r.bbsQ
  let m := p * q
  if p = q then .error .bbsEqualPrimes
  else if m ≤ 0 then .error .bbsModulus
  else if m ≥ ((2 ^ (W - 1) : Nat) : Int) then .error .bbsCapacity
  else
    .ok
      ({ r with
          bbsM := bits W m, bbsX := bits W (bbsSquare m (sint r.bbsX)),
          bbsAcc := bits W 0, bbsCnt := bits W 0, bbsLen := bits W 0 }.setArmed false,
        0#W)

/-- BBS_DRAW: the length of the next output value; BBS_X is read, not written (R97). -/
def bbsDrawEffect {W : Nat} (r : Regs W) : Effect W :=
  if sint r.bbsM ≤ 0 then .error .bbsNotConfigured
  else if r.armed then .error .bbsSequence
  else
    let len := bits W (bbsDrawLength (sint r.bbsX))
    .ok ({ r with bbsLen := len, bbsCnt := len, bbsAcc := bits W 0 }.setArmed true, len)

/-- BBS_BIT: one squaring, the low bit of the NEW state into the accumulator (R100). -/
def bbsBitEffect {W : Nat} (r : Regs W) : Effect W :=
  let m := sint r.bbsM
  if m ≤ 0 then .error .bbsNotConfigured
  else if r.armed = false ∨ sint r.bbsCnt = 0 then .error .bbsSequence
  else
    let x := bbsSquare m (sint r.bbsX)
    let b := bbsLowBit x
    .ok
      ({ r with
          bbsX := bits W x, bbsAcc := bits W (2 * sint r.bbsAcc + b), bbsCnt := bits W (sint r.bbsCnt - 1) },
        bits W b)

/-- BBS_EMIT: the accumulated integer to RES and `dout`; accumulator cleared, iterator IDLE (R102). -/
def bbsEmitEffect {W : Nat} (r : Regs W) : Effect W :=
  if r.armed = false ∨ sint r.bbsCnt ≠ 0 then .error .bbsSequence
  else
    let v := bits W (sint r.bbsAcc)
    .ok ({ r with res := v, bbsAcc := bits W 0 }.setArmed false, v)

/-- BBS_NEXT: one complete output value; STATUS.BBS_ARMED is 0 before and after (R104). -/
def bbsNextEffect {W : Nat} (r : Regs W) : Effect W :=
  let m := sint r.bbsM
  if m ≤ 0 then .error .bbsNotConfigured
  else if r.armed then .error .bbsSequence
  else
    let x := sint r.bbsX
    let len := bbsDrawLength x
    let out := bbsCollect m len.toNat x 0
    .ok
      ({ r with
          bbsX := bits W out.1, bbsLen := bits W len, bbsCnt := bits W 0, bbsAcc := bits W 0, res := bits W out.2 },
        bits W out.2)

/-- BBS_INIT (R96). -/
def execBbsInit (s : State) : Host.Outcome State Fault Refusal := .next (s.conclude (bbsInitEffect s.regs))

/-- BBS_DRAW (R97). -/
def execBbsDraw (s : State) : Host.Outcome State Fault Refusal := .next (s.conclude (bbsDrawEffect s.regs))

/-- BBS_BIT (R100). -/
def execBbsBit (s : State) : Host.Outcome State Fault Refusal := .next (s.conclude (bbsBitEffect s.regs))

/-- BBS_EMIT (R102). -/
def execBbsEmit (s : State) : Host.Outcome State Fault Refusal := .next (s.conclude (bbsEmitEffect s.regs))

/-- BBS_NEXT (R104). -/
def execBbsNext (s : State) : Host.Outcome State Fault Refusal := .next (s.conclude (bbsNextEffect s.regs))

end Sys2Proof.Machine
end

