-- ==== Sys2Proof/Machine/HostAccess.lean ====
section
/-! DEFINITION. The host access commands NOP, RD, WR and CLR_ERR (40_host_access.md). -/

namespace Sys2Proof.Machine

/-- NOP: nothing but a response (R76). -/
def nopEffect {W : Nat} (r : Regs W) : Effect W := .ok (r, 0#W)

/-- RD: the register's pattern on `dout`, or BAD_REGISTER (R77). Reading changes nothing (R52). -/
def rdEffect {W : Nat} (reg : Nat) (r : Regs W) : Effect W :=
  match RegName.ofIndex reg with
  | none => .error .badRegister
  | some n => .ok (r, r.read n)

/-- WR: BAD_REGISTER, then READ_ONLY, else the register takes `din` bit for bit with no check of the value (R78). -/
def wrEffect {W : Nat} (reg : Nat) (din : Word W) (r : Regs W) : Effect W :=
  match RegName.ofIndex reg with
  | none => .error .badRegister
  | some n => if n.readOnly then .error .readOnly else .ok (r.write n din, 0#W)

/-- CLR_ERR: STATUS.ERR <- 0; STATUS.BBS_ARMED is unchanged (R79). -/
def clrErrEffect {W : Nat} (r : Regs W) : Effect W := .ok (r.clearErr, 0#W)

/-- NOP (R76). -/
def execNop (s : State) : Host.Outcome State Fault Refusal := .next (s.conclude (nopEffect s.regs))

/-- RD (R77). -/
def execRd (reg : Nat) (s : State) : Host.Outcome State Fault Refusal := .next (s.conclude (rdEffect reg s.regs))

/-- WR, with the data word of the transaction on the port (R78). -/
def execWr (reg : Nat) (s : State) : Host.Outcome State Fault Refusal :=
  .next (s.conclude (wrEffect reg s.din s.regs))

/-- CLR_ERR (R79). -/
def execClrErr (s : State) : Host.Outcome State Fault Refusal := .next (s.conclude (clrErrEffect s.regs))

end Sys2Proof.Machine
end

