-- ==== Sys2Proof/Machine/Lcg.lean ====
section
/-! DEFINITION. The general LCG multiply-add-reduce LCG_STEP (43_lcg.md R91). -/

namespace Sys2Proof.Machine

/-- `floor_mod(a * x + c, m)` with the exact product (R91, R92). -/
def lcgNext (a c m x : Int) : Int := floorMod (a * x + c) m

/-- LCG_STEP: the modulus is checked first, so that a fault writes nothing (R91, R94). -/
def lcgStepEffect {W : Nat} (r : Regs W) : Effect W :=
  let m := sint r.lcgM
  if m ≤ 0 then .error .lcgModulus
  else
    let v := bits W (lcgNext (sint r.lcgA) (sint r.lcgC) m (sint r.lcgX))
    .ok ({ r with lcgX := v, res := v }, v)

/-- LCG_STEP (R91). -/
def execLcgStep (s : State) : Host.Outcome State Fault Refusal := .next (s.conclude (lcgStepEffect s.regs))

end Sys2Proof.Machine
end

