-- ==== Sys2Proof/Machine/Lecuyer.lean ====
section
/-! DEFINITION. The parallel dual-LCG combiner LEC_STEP (42_lecuyer.md R86). -/

namespace Sys2Proof.Machine

/-- The first stream's next value: fold into `[0, m1)`, then Schrage set 1 (R86). -/
def lecNext1 (x : Int) : Int := schrage1 (floorMod x m1)

/-- The second stream's next value: fold into `[0, m2)`, then Schrage set 2 (R86). -/
def lecNext2 (x : Int) : Int := schrage2 (floorMod x m2)

/-- The combination `floor_mod(y1 - y2, m1)` and no other (R86, R90). -/
def lecCombine (y1 y2 : Int) : Int := floorMod (y1 - y2) m1

/-- LEC_STEP: both streams advance, and their combination goes to RES and `dout`; no fault (R86). -/
def lecStepEffect {W : Nat} (r : Regs W) : Effect W :=
  let y1 := lecNext1 (sint r.lecX1)
  let y2 := lecNext2 (sint r.lecX2)
  let z := bits W (lecCombine y1 y2)
  .ok ({ r with lecX1 := bits W y1, lecX2 := bits W y2, res := z }, z)

/-- LEC_STEP (R86). -/
def execLecStep (s : State) : Host.Outcome State Fault Refusal := .next (s.conclude (lecStepEffect s.regs))

end Sys2Proof.Machine
end

