-- ==== Sys2Proof/Machine/Dispatch.lean ====
section
/-! DEFINITION. The meaning of each command: one arm per constructor, each one call of the command's own definition. -/

namespace Sys2Proof.Machine

open Sys2Proof

def exec (i : Instr) (s : State) : Host.Outcome State Fault Refusal :=
  match i with
  | .nop => Sys2Proof.Machine.execNop s
  | .rd reg => Sys2Proof.Machine.execRd reg s
  | .wr reg => Sys2Proof.Machine.execWr reg s
  | .clrErr => Sys2Proof.Machine.execClrErr s
  | .pmStep => Sys2Proof.Machine.execPmStep s
  | .lecStep => Sys2Proof.Machine.execLecStep s
  | .lcgStep => Sys2Proof.Machine.execLcgStep s
  | .bbsInit => Sys2Proof.Machine.execBbsInit s
  | .bbsDraw => Sys2Proof.Machine.execBbsDraw s
  | .bbsBit => Sys2Proof.Machine.execBbsBit s
  | .bbsEmit => Sys2Proof.Machine.execBbsEmit s
  | .bbsNext => Sys2Proof.Machine.execBbsNext s

end Sys2Proof.Machine
end

