-- ==== Sys2Proof/Machine/Step.lean ====
section
/-! DEFINITION. One step: one host move (20_memory.md R48, R49; 45_sequence_contracts.md R116). -/

namespace Sys2Proof.Machine

/-- One step of the machine. A transaction's word is decoded and its command executed, or it faults
ILLEGAL_COMMAND before any other check (R64, R124). A reset move resets. With no pending move nothing happens
(R128, R137, R145; log 5). -/
def step (s : State) : Host.Outcome State Fault Refusal :=
  match s.todo with
  | [] => .next s
  | .reset :: _ => .next s.takeReset
  | .transaction cmd _ :: _ =>
    match decode cmd with
    | .ok i => exec i s
    | .error e => .next (s.rejectWord e)

/-- The state whose next step runs the given command word: a transaction with that word on the port, `din` being 0
(log 2: the unit fetches nothing, R20; its host issues each command). -/
def State.withFetchWord (s : State) (nbits w : Nat) : State := s.issue (commandWord nbits w) 0#s.W

end Sys2Proof.Machine
end

