-- ==== Sys2Proof/Machine/Assembler.lean ====
section
/-! DEFINITION. The assembly syntax (30_encoding.md R67) and the pseudo-instructions (R68): what host moves a line of
the spec's programs stands for. Nothing here is a command of the unit. How blanks and signs are read is log 13. -/

namespace Sys2Proof.Machine

/-- A line that issues one transaction: a command without data, or WR with its value (R67). -/
inductive AsmCommand where
  /-- Every mnemonic but WR. `din` is ignored by the unit (R47), and the host sends 0. -/
  | plain (i : Instr)
  /-- WR with a register and a value. -/
  | write (reg : Nat) (v : Int)
deriving DecidableEq, Repr

/-- A line of assembly: one command, or one of the five pseudo-instructions of R68. -/
inductive AsmLine where
  | command (c : AsmCommand)
  | pmSeed (s : Int)
  | lecSeed (s1 s2 : Int)
  | lcgSet (a c m s : Int)
  | bbsSetup (p q s : Int)
  | rep (n : Nat) (c : AsmCommand)
deriving DecidableEq, Repr

/-- The value of a WR line "must lie in `[-2^(W-1), 2^(W-1))`, or the line is rejected by the assembler" (R67). -/
def fitsWord (W : Nat) (v : Int) : Bool :=
  decide (-((2 ^ (W - 1) : Nat) : Int) ≤ v ∧ v < ((2 ^ (W - 1) : Nat) : Int))

/-- The transaction a command line issues (R63, R66, R67). -/
def assembleCommand (W : Nat) : AsmCommand → Option (HostMove W)
  | .plain i => some (.transaction (encode i) 0#W)
  | .write reg v => if fitsWord W v then some (.transaction (encode (.wr reg)) (bits W v)) else none

/-- The transactions of several command lines, in order; none when one of them is rejected. -/
def assembleAll (W : Nat) : List AsmCommand → Option (List (HostMove W))
  | [] => some []
  | c :: cs =>
    match assembleCommand W c, assembleAll W cs with
    | some m, some ms => some (m :: ms)
    | _, _ => none

/-- The commands a line stands for: the expansions of R68, the register indices being those of R19. -/
def expandLine : AsmLine → List AsmCommand
  | .command c => [c]
  | .pmSeed s => [.write RegName.pmX.index s]
  | .lecSeed s1 s2 => [.write RegName.lecX1.index s1, .write RegName.lecX2.index s2]
  | .lcgSet a c m s =>
    [.write RegName.lcgA.index a, .write RegName.lcgC.index c, .write RegName.lcgM.index m,
      .write RegName.lcgX.index s]
  | .bbsSetup p q s =>
    [.write RegName.bbsP.index p, .write RegName.bbsQ.index q, .write RegName.bbsX.index s, .plain .bbsInit]
  | .rep n c => List.replicate n c

/-- The host moves of a line (R67, R68). -/
def assembleLine (W : Nat) (l : AsmLine) : Option (List (HostMove W)) := assembleAll W (expandLine l)

/-! The text of a line. -/

/-- Blanks between tokens: space and tab. -/
def isBlank (c : Char) : Bool := c == ' ' || c == '\t'

/-- A token without the blanks around it. -/
def trimBlanks (cs : List Char) : List Char :=
  ((cs.dropWhile isBlank).reverse.dropWhile isBlank).reverse

/-- The text before a comment: "`;` starts a comment" (R67). -/
def dropComment (cs : List Char) : List Char := cs.takeWhile (· != ';')

/-- A digit in a base up to 16, upper or lower case. -/
def digitValue (c : Char) : Option Nat :=
  if '0' ≤ c ∧ c ≤ '9' then some (c.toNat - '0'.toNat)
  else if 'a' ≤ c ∧ c ≤ 'f' then some (c.toNat - 'a'.toNat + 10)
  else if 'A' ≤ c ∧ c ≤ 'F' then some (c.toNat - 'A'.toNat + 10)
  else none

/-- The number some digits spell after `acc`, most significant first. -/
def readDigits (base : Nat) : List Char → Nat → Option Nat
  | [], acc => some acc
  | c :: cs, acc =>
    match digitValue c with
    | some d => if d < base then readDigits base cs (acc * base + d) else none
    | none => none

/-- An unsigned number: at least one digit. -/
def readNat (base : Nat) (cs : List Char) : Option Nat :=
  if cs.isEmpty then none else readDigits base cs 0

/-- "A value is a signed decimal integer or a `0x` hexadecimal one" (R67). -/
def readValue (cs : List Char) : Option Int :=
  match trimBlanks cs with
  | '-' :: ds => (readNat 10 ds).map fun n => -(n : Int)
  | '0' :: 'x' :: ds => (readNat 16 ds).map fun n => (n : Int)
  | ds => (readNat 10 ds).map fun n => (n : Int)

/-- The register names of R19 with their indices. -/
def registerNames : List (String × Nat) :=
  [("STATUS", 0x00), ("ID", 0x01), ("RES", 0x02), ("PM_X", 0x04), ("LEC_X1", 0x05), ("LEC_X2", 0x06),
    ("LCG_A", 0x07), ("LCG_C", 0x08), ("LCG_M", 0x09), ("LCG_X", 0x0A), ("BBS_P", 0x0B), ("BBS_Q", 0x0C),
    ("BBS_X", 0x0D), ("BBS_M", 0x0E), ("BBS_ACC", 0x0F), ("BBS_CNT", 0x10), ("BBS_LEN", 0x11)]

/-- "A register operand is a name from R19 or `r<index>` with a decimal index `0..31`" (R67). -/
def readRegister (cs : List Char) : Option Nat :=
  let t := trimBlanks cs
  match registerNames.lookup (String.ofList t) with
  | some n => some n
  | none =>
    match t with
    | 'r' :: ds =>
      match readNat 10 ds with
      | some n => if n < 32 then some n else none
      | none => none
    | _ => none

/-- The mnemonics that take no operand (R63). -/
def plainMnemonics : List (String × Instr) :=
  [("NOP", .nop), ("CLR_ERR", .clrErr), ("PM_STEP", .pmStep), ("LEC_STEP", .lecStep), ("LCG_STEP", .lcgStep),
    ("BBS_INIT", .bbsInit), ("BBS_DRAW", .bbsDraw), ("BBS_BIT", .bbsBit), ("BBS_EMIT", .bbsEmit),
    ("BBS_NEXT", .bbsNext)]

/-- The text split at its commas. -/
def splitCommas : List Char → List (List Char)
  | [] => [[]]
  | c :: cs =>
    match c == ',', splitCommas cs with
    | true, ps => [] :: ps
    | false, p :: ps => (c :: p) :: ps
    | false, [] => [[c]]

/-- A line's mnemonic and the rest of its text. -/
def splitMnemonic (cs : List Char) : String × List Char :=
  let t := trimBlanks cs
  (String.ofList (t.takeWhile fun c => !isBlank c), trimBlanks (t.dropWhile fun c => !isBlank c))

/-- A command line (R67). -/
def readCommand (cs : List Char) : Option AsmCommand :=
  let (mnemonic, rest) := splitMnemonic cs
  match mnemonic with
  | "RD" => (readRegister rest).map fun reg => .plain (.rd reg)
  | "WR" =>
    match splitCommas rest with
    | [reg, v] =>
      match readRegister reg, readValue v with
      | some n, some x => some (.write n x)
      | _, _ => none
    | _ => none
  | _ => if rest.isEmpty then (plainMnemonics.lookup mnemonic).map .plain else none

/-- The value operands of a pseudo-instruction. -/
def readValues (cs : List Char) : List (Option Int) := (splitCommas cs).map readValue

/-- One line: a command or a pseudo-instruction, without its comment (R67, R68). -/
def readLine (line : List Char) : Option AsmLine :=
  let text := dropComment line
  let (mnemonic, rest) := splitMnemonic text
  match mnemonic with
  | "PM_SEED" =>
    match readValues rest with
    | [some s] => some (.pmSeed s)
    | _ => none
  | "LEC_SEED" =>
    match readValues rest with
    | [some s1, some s2] => some (.lecSeed s1 s2)
    | _ => none
  | "LCG_SET" =>
    match readValues rest with
    | [some a, some c, some m, some s] => some (.lcgSet a c m s)
    | _ => none
  | "BBS_SETUP" =>
    match readValues rest with
    | [some p, some q, some s] => some (.bbsSetup p q s)
    | _ => none
  | "REP" =>
    match readNat 10 (trimBlanks (rest.takeWhile (· != ','))),
        readCommand ((rest.dropWhile (· != ',')).drop 1) with
    | some n, some c => some (.rep n c)
    | _, _ => none
  | _ => (readCommand text).map .command

/-- A program: one line after the other, blank and comment lines standing for no move (R67). -/
def assembleText (W : Nat) : List (List Char) → Option (List (HostMove W))
  | [] => some []
  | l :: ls =>
    match assembleText W ls with
    | none => none
    | some ms =>
      if (trimBlanks (dropComment l)).isEmpty then some ms
      else
        match readLine l with
        | none => none
        | some a => (assembleLine W a).map (· ++ ms)

end Sys2Proof.Machine
end

