-- ==== Sys2Proof/Machine/Calls.lean ====
section
/-! DEFINITION. The call-level contracts (45_sequence_contracts.md): the four reference functions, the host moves that
compute each on the unit, and the serialising of several host threads (20_memory.md R49). The count `n` is the
host's, a natural number (log 16). -/

namespace Sys2Proof.Machine

/-- `n` values of a stream: `next` steps the state and `out` is each new state's output. -/
def streamOf {α : Type} (next : α → α) (out : α → Int) : Nat → α → List Int
  | 0, _ => []
  | n + 1, x => out (next x) :: streamOf next out n (next x)

/-- `park_miller(seed, n)` (R109). -/
def parkMiller (seed : Int) (n : Nat) : List Int := streamOf schrage1 id n seed

/-- One step of the two folded streams of `lecuyer` (R110). -/
def lecuyerNext (x : Int × Int) : Int × Int := (schrage1 x.1, schrage2 x.2)

/-- `lecuyer(seed1, seed2, n)`: the seeds folded once, then `n` combined steps (R110). -/
def lecuyer (seed1 seed2 : Int) (n : Nat) : List Int :=
  streamOf lecuyerNext (fun x => floorMod (x.1 - x.2) m1) n (floorMod seed1 m1, floorMod seed2 m2)

/-- `lcg(a, c, m, seed, n)` (R111): none is InvalidParameter, for `m <= 0`. The unit reports it at each LCG_STEP, so
with `n = 0` it has nothing to report (R94). -/
def lcg (a c m seed : Int) (n : Nat) : Option (List Int) :=
  if m ≤ 0 then none else some (streamOf (lcgNext a c m) id n seed)

/-- The state and the value after one output of `bbs` from the state `x` (R112). -/
def bbsValue (m x : Int) : Int × Int := bbsCollect m (bbsDrawLength x).toNat x 0

/-- `bbs(p, q, seed, n)` (R112): none is InvalidParameter, for `p = q` or `p * q <= 0`. -/
def bbs (p q seed : Int) (n : Nat) : Option (List Int) :=
  if p = q ∨ p * q ≤ 0 then none
  else some (streamOf (fun x => bbsValue (p * q) x.1) (fun x => x.2) n (bbsSquare (p * q) seed, 0))

/-- The host's moves for `park_miller` (R109): none where the seed does not fit the width (R120). -/
def parkMillerMoves (W : Nat) (seed : Int) (n : Nat) : Option (List (HostMove W)) :=
  assembleAll W (expandLine (.pmSeed seed) ++ expandLine (.rep n (.plain .pmStep)))

/-- The host's moves for `lecuyer` (R110). -/
def lecuyerMoves (W : Nat) (seed1 seed2 : Int) (n : Nat) : Option (List (HostMove W)) :=
  assembleAll W (expandLine (.lecSeed seed1 seed2) ++ expandLine (.rep n (.plain .lecStep)))

/-- The host's moves for `lcg` (R111). -/
def lcgMoves (W : Nat) (a c m seed : Int) (n : Nat) : Option (List (HostMove W)) :=
  assembleAll W (expandLine (.lcgSet a c m seed) ++ expandLine (.rep n (.plain .lcgStep)))

/-- The host's moves for `bbs` (R112). -/
def bbsMoves (W : Nat) (p q seed : Int) (n : Nat) : Option (List (HostMove W)) :=
  assembleAll W (expandLine (.bbsSetup p q seed) ++ expandLine (.rep n (.plain .bbsNext)))

/-- Take the next move of thread number `k`, where it has one. -/
def takeMove {W : Nat} : Nat → List (List (HostMove W)) → Option (HostMove W × List (List (HostMove W)))
  | _, [] => none
  | 0, [] :: _ => none
  | 0, (m :: ms) :: ts => some (m, ms :: ts)
  | k + 1, t :: ts => (takeMove k ts).map fun x => (x.1, t :: x.2)

/-- The one list of moves that several host threads make when the platform's arbiter lets them in, one transaction at
a time, in `order` (HOST_ARBITRATION, an argument as 92_eei_decisions.md D3 asks; R49). A turn of a thread with
nothing left is skipped. -/
def serialise {W : Nat} : List Nat → List (List (HostMove W)) → List (HostMove W)
  | [], _ => []
  | k :: ks, ts =>
    match takeMove k ts with
    | some x => x.1 :: serialise ks x.2
    | none => serialise ks ts

end Sys2Proof.Machine
end

