-- ==== Sys2Proof/Safety.lean ====
section
/-! DEFINITION. The terms in which claims speak of the machine: the invariant of 10_state.md R38, how a transaction
ends, which response code is due (60_exceptions.md R122, R124), which command writes which register (10_state.md R19),
and runs (45_sequence_contracts.md R117). A safe run is one in which the invariant holds at every state; no step of
this machine stops. -/

namespace Sys2Proof.Machine

/-- The six clauses of R38, numbered as there. -/
structure Regs.Inv {W : Nat} (r : Regs W) : Prop where
  /-- Clause 1: `0 <= BBS_CNT <= BBS_LEN <= 29`. -/
  counts : 0 ≤ sint r.bbsCnt ∧ sint r.bbsCnt ≤ sint r.bbsLen ∧ sint r.bbsLen ≤ 29
  /-- Clause 2: `0 <= BBS_ACC < 2^(BBS_LEN - BBS_CNT)`. -/
  accumulator : 0 ≤ sint r.bbsAcc ∧ sint r.bbsAcc < 2 ^ (sint r.bbsLen - sint r.bbsCnt).toNat
  /-- Clause 3: not armed, the count and the accumulator are 0. -/
  idle : r.armed = false → sint r.bbsCnt = 0 ∧ sint r.bbsAcc = 0
  /-- Clause 4: armed, the modulus is positive. -/
  configured : r.armed = true → 0 < sint r.bbsM
  /-- Clause 5: the modulus is 0 or in `[1, 2^(W-1))`. -/
  modulus : sint r.bbsM = 0 ∨ (1 ≤ sint r.bbsM ∧ sint r.bbsM < 2 ^ (W - 1))
  /-- Clause 6: `STATUS.ERR` is in `0 .. 9`. -/
  errCode : r.err.toNat ≤ 9

/-- Bits `W-1:5` of STATUS are "reserved, read as 0" (R21). -/
def Regs.ReservedZero {W : Nat} (r : Regs W) : Prop :=
  ∀ i, 5 ≤ i → r.status.getLsbD i = false

/-- The invariant of a state: R38 and the reserved STATUS bits of R21. -/
def State.Inv (s : State) : Prop := s.regs.Inv ∧ s.regs.ReservedZero

/-- The state in which the transaction on the port has ended with `(resp, dout)` and left the registers `r`: the next
host move is up, the response stands last among those returned, and the width is as it was (R47, R48). -/
abbrev State.ended (s : State) (r : Regs s.W) (resp : RespCode) (dout : Word s.W) : State :=
  { s with regs := r, todo := s.todo.tail, answered := s.answered ++ [⟨resp, dout⟩] }

/-- The state in which the transaction on the port has faulted with code `c` (R126): `dout` is 0, and STATUS.ERR is
`c` if it was 0. -/
abbrev State.faulted (s : State) (c : RespCode) : State :=
  s.ended (if s.regs.err = 0 then s.regs.setErr c else s.regs) c 0

/-- `k` steps from `s` end in `t`. -/
def Runs (k : Nat) (s t : State) : Prop := Sys2Proof.core.run k s = .next t

/-- The state of a run in which the transactions up to here have left the registers `r`, returned `rs`, and the moves
`rest` are still to be made. -/
abbrev State.ranTo (s : State) (r : Regs s.W) (rest : List (HostMove s.W)) (rs : List (Response s.W)) : State :=
  { s with regs := r, todo := rest, answered := s.answered ++ rs }

/-- The code of the first condition that holds, in the order of R124, for the command word `cmd`; 0 where none
does. The conditions are the causes of R122. -/
def responseCode {W : Nat} (r : Regs W) (cmd : CmdWord) : RespCode :=
  match decode cmd with
  | .error _ => 1
  | .ok (.rd reg) => if reg = 0x03 ∨ 0x12 ≤ reg then 2 else 0
  | .ok (.wr reg) =>
    if reg = 0x03 ∨ 0x12 ≤ reg then 2
    else if reg ∈ [0x00, 0x01, 0x02, 0x0E, 0x0F, 0x10, 0x11] then 3
    else 0
  | .ok .lcgStep => if sint r.lcgM ≤ 0 then 4 else 0
  | .ok .bbsInit =>
    if sint r.bbsP = sint r.bbsQ then 5
    else if sint r.bbsP * sint r.bbsQ ≤ 0 then 6
    else if 2 ^ (W - 1) ≤ sint r.bbsP * sint r.bbsQ then 7
    else 0
  | .ok .bbsDraw => if sint r.bbsM ≤ 0 then 8 else if r.armed = true then 9 else 0
  | .ok .bbsBit =>
    if sint r.bbsM ≤ 0 then 8 else if r.armed = false ∨ sint r.bbsCnt = 0 then 9 else 0
  | .ok .bbsEmit => if r.armed = false ∨ sint r.bbsCnt ≠ 0 then 9 else 0
  | .ok .bbsNext => if sint r.bbsM ≤ 0 then 8 else if r.armed = true then 9 else 0
  | .ok .nop => 0
  | .ok .clrErr => 0
  | .ok .pmStep => 0
  | .ok .lecStep => 0

/-- The column "written by (commands)" of R19, without STATUS's "any faulting command". -/
def writtenBy : RegName → List Instr
  | .status => [.clrErr, .bbsInit, .bbsDraw, .bbsEmit]
  | .id => []
  | .res => [.pmStep, .lecStep, .lcgStep, .bbsEmit, .bbsNext]
  | .pmX => [.wr 0x04, .pmStep]
  | .lecX1 => [.wr 0x05, .lecStep]
  | .lecX2 => [.wr 0x06, .lecStep]
  | .lcgA => [.wr 0x07]
  | .lcgC => [.wr 0x08]
  | .lcgM => [.wr 0x09]
  | .lcgX => [.wr 0x0A, .lcgStep]
  | .bbsP => [.wr 0x0B]
  | .bbsQ => [.wr 0x0C]
  | .bbsX => [.wr 0x0D, .bbsInit, .bbsBit, .bbsNext]
  | .bbsM => [.bbsInit]
  | .bbsAcc => [.bbsInit, .bbsDraw, .bbsBit, .bbsEmit, .bbsNext]
  | .bbsCnt => [.bbsInit, .bbsDraw, .bbsBit, .bbsNext]
  | .bbsLen => [.bbsInit, .bbsDraw, .bbsNext]

/-- The engine groups of R42. RES and STATUS.ERR are shared and belong to none. -/
inductive Engine where
  | parkMiller | lecuyer | lcg | bbs
deriving DecidableEq, Repr

/-- The registers of an engine's group (R42), STATUS.BBS_ARMED apart. -/
def Engine.registers : Engine → List RegName
  | .parkMiller => [.pmX]
  | .lecuyer => [.lecX1, .lecX2]
  | .lcg => [.lcgA, .lcgC, .lcgM, .lcgX]
  | .bbs => [.bbsP, .bbsQ, .bbsX, .bbsM, .bbsAcc, .bbsCnt, .bbsLen]

/-- The commands of an engine. -/
def Engine.commands : Engine → List Instr
  | .parkMiller => [.pmStep]
  | .lecuyer => [.lecStep]
  | .lcg => [.lcgStep]
  | .bbs => [.bbsInit, .bbsDraw, .bbsBit, .bbsEmit, .bbsNext]

/-- Two register files agree on an engine's group (R42): its registers, and STATUS.BBS_ARMED for the BBS group. -/
def Engine.Agree {W : Nat} (e : Engine) (r r' : Regs W) : Prop :=
  (∀ n ∈ e.registers, r.read n = r'.read n) ∧ (e = .bbs → r.armed = r'.armed)

end Sys2Proof.Machine
end

