-- ==== Sys2Proof/Certificates/Slice0/Obligations.lean ====
section
/-! DEFINITION. The statements for the provers. Every statement is about every legal width. Where a rule writes
`floor_mod` with a positive divisor, a statement writes Lean's `%` on integers, which is that function there
(`Obligations.FloorDivisionIsTheGreatestInteger`). In every statement the host port of 20_memory.md R47 is rendered as
log 2 and log 3 say: the transaction on the port is the first of the host's pending moves, and its response is the
last of those returned. -/

open Sys2Proof Sys2Proof.Machine Sys2Proof.Config

/-! ### Numbers (00_scope.md) -/

/-- R10: `floor_div(x, y)` is the greatest `k` with `k * y <= x`, `floor_mod(x, y) = x - y * floor_div(x, y)` lies in
`[0, y)`, and they are Lean's `/` and `%` there. -/
def Obligations.FloorDivisionIsTheGreatestInteger : Prop :=
  ∀ x y : Int, 0 < y →
    floorDiv x y * y ≤ x ∧ (∀ k : Int, k * y ≤ x → k ≤ floorDiv x y) ∧
    floorMod x y = x - y * floorDiv x y ∧ 0 ≤ floorMod x y ∧ floorMod x y < y ∧
    floorDiv x y = x / y ∧ floorMod x y = x % y

/-- R9: reading back what `bits_W` wrote gives the integer, for every integer of the signed range, and writing back
what `sint_W` read gives the pattern. -/
def Obligations.SignedReadingInvertsWriting : Prop :=
  ∀ (w : Width),
    (∀ v : Int, -(2 ^ (w.bits - 1)) ≤ v → v < 2 ^ (w.bits - 1) → sint (bits w.bits v) = v) ∧
    (∀ b : Word w.bits, -(2 ^ (w.bits - 1)) ≤ sint b ∧ sint b < 2 ^ (w.bits - 1) ∧ bits w.bits (sint b) = b)

/-! ### Encoding (30_encoding.md) -/

/-- R63: the opcode map. Every assigned word decodes to its command, RD and WR for each of the 32 indices, and a word
with any other OP is rejected. -/
def Obligations.AssignedOpcodesDecodeToTheirCommands : Prop :=
  decode 0x00000000 = .ok .nop ∧
  (∀ reg, reg < 32 → decode (0x04000000 ||| BitVec.ofNat 32 (reg <<< 21)) = .ok (.rd reg)) ∧
  (∀ reg, reg < 32 → decode (0x08000000 ||| BitVec.ofNat 32 (reg <<< 21)) = .ok (.wr reg)) ∧
  decode 0x0C000000 = .ok .clrErr ∧ decode 0x20000000 = .ok .pmStep ∧ decode 0x30000000 = .ok .lecStep ∧
  decode 0x40000000 = .ok .lcgStep ∧ decode 0x50000000 = .ok .bbsInit ∧ decode 0x54000000 = .ok .bbsDraw ∧
  decode 0x58000000 = .ok .bbsBit ∧ decode 0x5C000000 = .ok .bbsEmit ∧ decode 0x60000000 = .ok .bbsNext ∧
  (∀ w : CmdWord, (w.extractLsb' 26 6).toNat ∉ [0x00, 0x01, 0x02, 0x03, 0x08, 0x0C, 0x10, 0x14, 0x15, 0x16, 0x17, 0x18] →
    decode w = .error .unassignedOpcode)

/-- A few command words of R66 and 95_test_vectors.md, written out, decode to the commands they stand for. -/
def Obligations.WrittenOutWordsDecode : Prop :=
  decode 0b00000100100000000000000000000000#32 = .ok (.rd 0x04) ∧
  decode 0b00001001001000000000000000000000#32 = .ok (.wr 0x09) ∧
  decode 0b00100000000000000000000000000000#32 = .ok .pmStep ∧
  decode 0b00110000000000000000000000000000#32 = .ok .lecStep ∧
  decode 0b01000000000000000000000000000000#32 = .ok .lcgStep ∧
  decode 0b01100000000000000000000000000000#32 = .ok .bbsNext ∧
  decode 0x00000001 = .error .zeroFieldNotZero ∧
  decode 0x20200000 = .error .registerFieldNotZero ∧
  decode 0xFC000000 = .error .unassignedOpcode

/-- Decoding and encoding agree, both ways and for every command: a word decodes to `i` exactly when `i` is well
formed and the word is `encode i`. So no operand value is lost and no two words mean one command. -/
def Obligations.DecodeAndEncodeAgree : Prop :=
  ∀ (w : CmdWord) (i : Instr), decode w = .ok i ↔ (i.wellFormed = true ∧ encode i = w)

/-- R64: which words are legal, how many they are, what decoding answers for one, and that an illegal one faults
ILLEGAL_COMMAND in every state while an RD or WR of an unimplemented index faults BAD_REGISTER only when executed. -/
def Obligations.LegalWordsAreExactlyTheSeventyFour : Prop :=
  (∀ w : CmdWord, (∃ i, decode w = .ok i) ↔
    ((w.extractLsb' 26 6).toNat ∈ [0x00, 0x01, 0x02, 0x03, 0x08, 0x0C, 0x10, 0x14, 0x15, 0x16, 0x17, 0x18] ∧
      (w.extractLsb' 0 21).toNat = 0 ∧
      ((w.extractLsb' 26 6).toNat ∈ [0x01, 0x02] ∨ (w.extractLsb' 21 5).toNat = 0))) ∧
  (∀ (w : CmdWord) (i : Instr), decode w = .ok i →
    opcodeOf i = w.extractLsb' 26 6 ∧ i.regOperand.getD 0 = (w.extractLsb' 21 5).toNat) ∧
  (∃ l : List CmdWord, l.Nodup ∧ l.length = 74 ∧ ∀ w, w ∈ l ↔ ∃ i, decode w = .ok i) ∧
  (∀ (s : State) (cmd : CmdWord) (d : Word s.W) (rest : List (HostMove s.W)) (e : DecodeError),
    s.todo = .transaction cmd d :: rest → decode cmd = .error e → step s = .next (s.faulted 1)) ∧
  (∀ (s : State) (reg : Nat), (reg = 0x03 ∨ (0x12 ≤ reg ∧ reg < 32)) →
    decode (0x04000000 ||| BitVec.ofNat 32 (reg <<< 21)) = .ok (.rd reg) ∧
    decode (0x08000000 ||| BitVec.ofNat 32 (reg <<< 21)) = .ok (.wr reg) ∧
    exec (.rd reg) s = .next (s.faulted 2) ∧ exec (.wr reg) s = .next (s.faulted 2))

/-! ### The step -/

/-- One step is one host move. A transaction whose word decodes runs exactly `exec` of the decoded command at that
state, which ends it with one response; a reset move resets the registers; with no move pending nothing changes (the
last is the model's reading of R128 and R137, log 5; the pending moves and responses are log 2 and log 3). -/
def Obligations.StepRunsTheDecodedCommand : Prop :=
  (∀ (s : State) (cmd : CmdWord) (d : Word s.W) (rest : List (HostMove s.W)) (i : Instr),
    s.todo = .transaction cmd d :: rest → decode cmd = .ok i →
      step s = exec i s ∧ ∃ r resp dout, exec i s = .next (s.ended r resp dout)) ∧
  (∀ (s : State) (rest : List (HostMove s.W)), s.todo = .reset :: rest →
    step s = .next (s.ranTo (Regs.reset s.W) rest [])) ∧
  (∀ s : State, s.todo = [] → step s = .next s)

/-- Every transaction completes (R159, R48): it ends in a next state and returns exactly one response. The first clause
is the model's reading and no sentence of those rules: that every step answers a next state, also where no move is
pending, is log 5 (DEDUCED from R128 and R137), and that no step answers the outcome fault or refused, a fault being a
response after which the unit runs on, is log 8 (DEDUCED from R141). The pending moves and the responses returned are
log 2 and log 3. -/
def Obligations.EveryTransactionCompletes : Prop :=
  (∀ s : State, ∃ t, step s = .next t) ∧
  (∀ (s : State) (cmd : CmdWord) (d : Word s.W) (rest : List (HostMove s.W)),
    s.todo = .transaction cmd d :: rest → ∃ r resp dout,
      step s = .next (s.ended r resp dout) ∧ (s.ended r resp dout).todo = rest ∧
      (s.ended r resp dout).answered.length = s.answered.length + 1)

/-! ### Faults (60_exceptions.md) and STATUS (10_state.md) -/

/-- R126: a transaction that faults returns its code with `dout = 0`, records the code in STATUS.ERR if that was 0,
and leaves every other bit of STATUS and every other register as it was. -/
def Obligations.FaultsArePrecise : Prop :=
  ∀ (s : State) (cmd : CmdWord) (d : Word s.W) (rest : List (HostMove s.W)), s.todo = .transaction cmd d :: rest →
    ∃ r resp dout, step s = .next (s.ended r resp dout) ∧
      (resp ≠ 0 → dout = 0 ∧ r.err = (if s.regs.err = 0 then resp else s.regs.err) ∧
        (∀ k, 4 ≤ k → r.status.getLsbD k = s.regs.status.getLsbD k) ∧
        r = { s.regs with status := r.status })

/-- R124: the response code of a transaction is that of the first condition that holds in the order of R124, and 0
where none does. -/
def Obligations.FirstConditionInPriorityOrderIsReported : Prop :=
  ∀ (s : State) (cmd : CmdWord) (d : Word s.W) (rest : List (HostMove s.W)), s.todo = .transaction cmd d :: rest →
    ∃ r dout, step s = .next (s.ended r (responseCode s.regs cmd) dout)

/-- R22: STATUS.ERR is sticky. A fault writes it only when it is 0, a transaction that does not fault leaves it alone
except CLR_ERR, CLR_ERR and reset set it to 0, and the values 10 to 15 never appear. -/
def Obligations.ErrKeepsTheFirstFault : Prop :=
  (∀ (s : State) (cmd : CmdWord) (d : Word s.W) (rest : List (HostMove s.W)), s.todo = .transaction cmd d :: rest →
    ∃ r resp dout, step s = .next (s.ended r resp dout) ∧
      (resp ≠ 0 → r.err = if s.regs.err = 0 then resp else s.regs.err) ∧
      (resp = 0 → decode cmd ≠ .ok .clrErr → r.err = s.regs.err) ∧
      (decode cmd = .ok .clrErr → resp = 0 ∧ r.err = 0)) ∧
  (∀ (s t : State) (rest : List (HostMove s.W)), s.todo = .reset :: rest → step s = .next t → t.regs.err = 0) ∧
  (∀ w : Width, (State.resetAt w).regs.err = 0) ∧
  (∀ s t : State, s.regs.err.toNat ≤ 9 → step s = .next t → t.regs.err.toNat ≤ 9)

/-- R23: exactly these events change STATUS.BBS_ARMED: a successful BBS_DRAW sets it, a successful BBS_EMIT and a
successful BBS_INIT clear it, reset clears it; BBS_NEXT succeeds only with it 0 and leaves it 0. -/
def Obligations.ArmedChangesOnlyAtDrawEmitInitAndReset : Prop :=
  (∀ (s : State) (cmd : CmdWord) (d : Word s.W) (rest : List (HostMove s.W)), s.todo = .transaction cmd d :: rest →
    ∃ r resp dout, step s = .next (s.ended r resp dout) ∧
      (resp = 0 → decode cmd = .ok .bbsDraw → r.armed = true) ∧
      (resp = 0 → decode cmd = .ok .bbsEmit → r.armed = false) ∧
      (resp = 0 → decode cmd = .ok .bbsInit → r.armed = false) ∧
      (resp = 0 → decode cmd = .ok .bbsNext → s.regs.armed = false ∧ r.armed = false) ∧
      ((resp ≠ 0 ∨ (decode cmd ≠ .ok .bbsDraw ∧ decode cmd ≠ .ok .bbsEmit ∧ decode cmd ≠ .ok .bbsInit)) →
        r.armed = s.regs.armed)) ∧
  (∀ (s t : State) (rest : List (HostMove s.W)), s.todo = .reset :: rest → step s = .next t →
    t.regs.armed = false) ∧
  (∀ w : Width, (State.resetAt w).regs.armed = false)

/-- R138: a transaction that faults leaves every register but STATUS as it was, so issued again at once it faults
again with the same code. -/
def Obligations.FaultsAreNotTransient : Prop :=
  ∀ (s : State) (cmd : CmdWord) (d : Word s.W) (rest : List (HostMove s.W)),
    s.todo = .transaction cmd d :: .transaction cmd d :: rest →
    ∃ (r : Regs s.W) (resp : RespCode) (dout : Word s.W), step s = .next (s.ended r resp dout) ∧
      (resp ≠ 0 → r = { s.regs with status := r.status } ∧
        ∃ r' : Regs s.W, step (s.ended r resp dout) = .next ((s.ended r resp dout).ended r' resp 0))

/-- R139, for a batch of transactions in which CLR_ERR stands at most first: when STATUS.ERR is 0 before it or a
CLR_ERR begins it, STATUS.ERR after it is the first non-zero response of the batch, and 0 exactly when none faulted. -/
def Obligations.OneStatusReadChecksABatch : Prop :=
  ∀ (s : State) (cs : List (CmdWord × Word s.W)) (rest : List (HostMove s.W)),
    s.todo = cs.map (fun c => .transaction c.1 c.2) ++ rest →
    (∀ c ∈ cs.tail, decode c.1 ≠ .ok .clrErr) →
    (s.regs.err = 0 ∨ ∃ c, cs.head? = some c ∧ decode c.1 = .ok .clrErr) →
    ∃ r rs, Runs cs.length s (s.ranTo r rest rs) ∧ rs.length = cs.length ∧
      r.err = ((rs.map Response.resp).find? (· ≠ 0)).getD 0 ∧
      (r.err = 0 ↔ ∀ x ∈ rs, x.resp = 0)

/-- R129: a set STATUS.ERR blocks nothing. Whatever code stands there, the same transaction gets the same response and
leaves every register but STATUS the same, STATUS.BBS_ARMED too. -/
def Obligations.StickyErrorBlocksNoCommand : Prop :=
  ∀ (s : State) (cmd : CmdWord) (d : Word s.W) (rest : List (HostMove s.W)) (c : RespCode),
    s.todo = .transaction cmd d :: rest → decode cmd ≠ .ok (.rd 0x00) →
    ∃ (r r' : Regs s.W) (resp : RespCode) (dout : Word s.W),
      step s = .next (s.ended r resp dout) ∧
      step { s with regs := s.regs.setErr c } =
        .next (State.ended { s with regs := s.regs.setErr c } r' resp dout) ∧
      r' = { r with status := r'.status } ∧ r'.armed = r.armed

/-- R21: where the reserved bits are 0, RD STATUS returns `ERR + 16 * BBS_ARMED`; WR STATUS faults READ_ONLY. -/
def Obligations.StatusReadsErrAndArmed : Prop :=
  ∀ s : State,
    (s.regs.ReservedZero → ∃ v, exec (.rd 0x00) s = .next (s.ended s.regs 0 v) ∧
      uint v = s.regs.err.toNat + 16 * (if s.regs.armed then 1 else 0)) ∧
    exec (.wr 0x00) s = .next (s.faulted 3)

/-- R24: ID reads `(1 << 16) | W` in every state: `W` in bits 15:0, the version 1 in bits 23:16, 0 above; WR ID faults
READ_ONLY. -/
def Obligations.IdReadsVersionAndWidth : Prop :=
  ∀ s : State,
    (∃ v : Word s.W, exec (.rd 0x01) s = .next (s.ended s.regs 0 v) ∧ v.toNat = 65536 + s.W ∧
      (v.extractLsb' 0 16).toNat = s.W ∧ (v.extractLsb' 16 8).toNat = 1 ∧
      ∀ k, 24 ≤ k → v.getLsbD k = false) ∧
    exec (.wr 0x01) s = .next (s.faulted 3)

/-! ### The invariant (10_state.md R38) and who writes what -/

/-- Every step keeps the invariant of R38 and the reserved STATUS bits of R21, from EVERY state that has them. -/
def Obligations.StepKeepsTheInvariant : Prop :=
  ∀ s t : State, s.Inv → step s = .next t → t.Inv

/-- The reset state of every width has the invariant of R38 and the reserved STATUS bits of R21. -/
def Obligations.ResetHasTheInvariant : Prop :=
  ∀ w : Width, (State.resetAt w).Inv

/-- R38: every state reachable from reset by host moves, whatever they are, has the six clauses. -/
def Obligations.ReachableStatesHaveTheInvariant : Prop :=
  ∀ (w : Width) (ms : List (HostMove w.bits)) (k : Nat) (t : State),
    Runs k { State.resetAt w with todo := ms } t → t.regs.Inv

/-- R19 and R41: a register changes only by a command of its "written by" column, and STATUS also by a fault. -/
def Obligations.RegistersChangeOnlyByTheirWriters : Prop :=
  ∀ (s : State) (cmd : CmdWord) (d : Word s.W) (rest : List (HostMove s.W)), s.todo = .transaction cmd d :: rest →
    ∃ r resp dout, step s = .next (s.ended r resp dout) ∧
      ∀ n, r.read n ≠ s.regs.read n →
        (resp ≠ 0 ∧ n = .status) ∨ (resp = 0 ∧ ∃ i ∈ writtenBy n, decode cmd = .ok i)

/-- R25: PM_STEP, LEC_STEP, LCG_STEP, BBS_EMIT and BBS_NEXT, when they do not fault, write their `dout` to RES; every
other transaction leaves RES alone; WR RES faults READ_ONLY. -/
def Obligations.ResHoldsTheLastOutput : Prop :=
  (∀ (s : State) (cmd : CmdWord) (d : Word s.W) (rest : List (HostMove s.W)), s.todo = .transaction cmd d :: rest →
    ∃ r resp dout, step s = .next (s.ended r resp dout) ∧
      (resp = 0 → (∃ i ∈ [Instr.pmStep, .lecStep, .lcgStep, .bbsEmit, .bbsNext], decode cmd = .ok i) → r.res = dout) ∧
      ((resp ≠ 0 ∨ ¬ ∃ i ∈ [Instr.pmStep, .lecStep, .lcgStep, .bbsEmit, .bbsNext], decode cmd = .ok i) →
        r.res = s.regs.res)) ∧
  (∀ s : State, exec (.wr 0x02) s = .next (s.faulted 3))

/-- R42: no command of one engine writes another engine's registers, and none reads them: from two register files that
agree on the engine's own group its command gives the same response and leaves files that agree on the group. -/
def Obligations.EnginesAreSeparate : Prop :=
  ∀ (e : Engine) (i : Instr), i ∈ e.commands → ∀ (s : State) (q : Regs s.W), e.Agree s.regs q →
    ∃ (r r' : Regs s.W) (resp : RespCode) (dout : Word s.W),
      exec i s = .next (s.ended r resp dout) ∧
      exec i { s with regs := q } = .next (State.ended { s with regs := q } r' resp dout) ∧
      e.Agree r r' ∧
      (∀ e' : Engine, e' ≠ e → e'.Agree s.regs r)

/-- R44: the ranges the engines keep. For BBS_NEXT the state must have been in `[0, BBS_M)` before, since a drawn
length of 0 leaves it unchanged (R104; log 17), and for BBS_EMIT the invariant of R38 must hold. -/
def Obligations.EnginesKeepTheirRanges : Prop :=
  ∀ s : State,
    (∃ r dout, exec .pmStep s = .next (s.ended r 0 dout) ∧
      (0 ≤ sint s.regs.pmX → sint s.regs.pmX < 2147483647 → 0 ≤ sint r.pmX ∧ sint r.pmX < 2147483647)) ∧
    (∃ r dout, exec .lecStep s = .next (s.ended r 0 dout) ∧ 0 ≤ sint r.lecX1 ∧ sint r.lecX1 < 2147483647 ∧
      0 ≤ sint r.lecX2 ∧ sint r.lecX2 < 536870911 ∧ 0 ≤ sint r.res ∧ sint r.res < 2147483647) ∧
    (∃ r resp dout, exec .lcgStep s = .next (s.ended r resp dout) ∧
      (resp = 0 → 0 ≤ sint r.lcgX ∧ sint r.lcgX < sint r.lcgM ∧ 0 ≤ sint r.res ∧ sint r.res < sint r.lcgM)) ∧
    (∃ r resp dout, exec .bbsInit s = .next (s.ended r resp dout) ∧
      (resp = 0 → 0 ≤ sint r.bbsX ∧ sint r.bbsX < sint r.bbsM)) ∧
    (∃ r resp dout, exec .bbsBit s = .next (s.ended r resp dout) ∧
      (resp = 0 → 0 ≤ sint r.bbsX ∧ sint r.bbsX < sint r.bbsM)) ∧
    (∃ r resp dout, exec .bbsNext s = .next (s.ended r resp dout) ∧
      (resp = 0 → 0 ≤ sint r.res ∧ sint r.res < 2 ^ 29 ∧
        (0 ≤ sint s.regs.bbsX → sint s.regs.bbsX < sint s.regs.bbsM →
          0 ≤ sint r.bbsX ∧ sint r.bbsX < sint r.bbsM))) ∧
    (∃ r resp dout, exec .bbsEmit s = .next (s.ended r resp dout) ∧
      (s.regs.Inv → resp = 0 → 0 ≤ sint r.res ∧ sint r.res < 2 ^ 29))

/-! ### Reset (70_reset_and_hazards.md) -/

/-- After reset every register reads 0 except ID, the reset state has R38's invariant, and a reset move between
transactions enters it, whatever the registers held (R144). The clause that `State.reset` is the reset state at the
spec's default width is R5 and log 1 (DESIGN CHOICE). That a reset move comes off the pending moves is log 2 (DESIGN
CHOICE), and that it keeps the responses already returned is log 3 (DESIGN CHOICE). -/
def Obligations.ResetZeroesEveryRegisterButId : Prop :=
  (∀ (w : Width) (n : RegName), n ≠ .id → (State.resetAt w).regs.read n = 0) ∧
  (∀ w : Width, ((State.resetAt w).regs.read .id).toNat = (1 <<< 16) ||| w.bits) ∧
  (∀ w : Width, (State.resetAt w).regs.Inv) ∧
  State.reset = State.resetAt Width.default ∧
  (∀ (s : State) (rest : List (HostMove s.W)), s.todo = .reset :: rest →
    step s = .next { s with regs := (State.resetAt s.width).regs, todo := rest })

/-- R146: what each command does when its transaction finds the registers as reset leaves them. -/
def Obligations.CommandsFromTheResetState : Prop :=
  ∀ s : State, s.regs = (State.resetAt s.width).regs →
    exec .pmStep s = .next (s.ended s.regs 0 0) ∧
    exec .lecStep s = .next (s.ended s.regs 0 0) ∧
    exec .lcgStep s = .next (s.faulted 4) ∧
    exec .bbsDraw s = .next (s.faulted 8) ∧ exec .bbsBit s = .next (s.faulted 8) ∧
    exec .bbsNext s = .next (s.faulted 8) ∧
    exec .bbsEmit s = .next (s.faulted 9) ∧
    exec .bbsInit s = .next (s.faulted 5) ∧
    exec (.rd 0x01) s = .next (s.ended s.regs 0 (BitVec.ofNat s.W ((1 <<< 16) ||| s.W))) ∧
    (∀ reg, reg < 0x12 → reg ≠ 0x01 → reg ≠ 0x03 → exec (.rd reg) s = .next (s.ended s.regs 0 0))

/-! ### Host access commands (40_host_access.md) -/

/-- R76: NOP returns success with `dout = 0` and changes nothing. -/
def Obligations.NopChangesNothing : Prop :=
  decode 0x00000000 = .ok .nop ∧ ∀ s : State, exec .nop s = .next (s.ended s.regs 0 0)

/-- R77: RD of each implemented register returns its pattern and changes nothing; of any other index it faults
BAD_REGISTER. -/
def Obligations.RdReturnsTheRegister : Prop :=
  (∀ reg, reg < 32 → decode (0x04000000 ||| BitVec.ofNat 32 (reg <<< 21)) = .ok (.rd reg)) ∧
  ∀ s : State,
    (∀ e ∈ [((0x00 : Nat), s.regs.status), (0x01, BitVec.ofNat s.W ((1 <<< 16) ||| s.W)), (0x02, s.regs.res),
        (0x04, s.regs.pmX), (0x05, s.regs.lecX1), (0x06, s.regs.lecX2), (0x07, s.regs.lcgA), (0x08, s.regs.lcgC),
        (0x09, s.regs.lcgM), (0x0A, s.regs.lcgX), (0x0B, s.regs.bbsP), (0x0C, s.regs.bbsQ), (0x0D, s.regs.bbsX),
        (0x0E, s.regs.bbsM), (0x0F, s.regs.bbsAcc), (0x10, s.regs.bbsCnt), (0x11, s.regs.bbsLen)],
      exec (.rd e.1) s = .next (s.ended s.regs 0 e.2)) ∧
    (∀ reg, (reg = 0x03 ∨ 0x12 ≤ reg) → exec (.rd reg) s = .next (s.faulted 2))

/-- R78: WR of a RW register writes the transaction's data word bit for bit, whatever it is, and nothing else; of a
read-only register it faults READ_ONLY; of any other index it faults BAD_REGISTER. -/
def Obligations.WrWritesTheDataWord : Prop :=
  (∀ reg, reg < 32 → decode (0x08000000 ||| BitVec.ofNat 32 (reg <<< 21)) = .ok (.wr reg)) ∧
  ∀ (s : State) (cmd : CmdWord) (d : Word s.W) (rest : List (HostMove s.W)), s.todo = .transaction cmd d :: rest →
    (∀ e ∈ [((0x04 : Nat), { s.regs with pmX := d }), (0x05, { s.regs with lecX1 := d }),
        (0x06, { s.regs with lecX2 := d }), (0x07, { s.regs with lcgA := d }), (0x08, { s.regs with lcgC := d }),
        (0x09, { s.regs with lcgM := d }), (0x0A, { s.regs with lcgX := d }), (0x0B, { s.regs with bbsP := d }),
        (0x0C, { s.regs with bbsQ := d }), (0x0D, { s.regs with bbsX := d })],
      exec (.wr e.1) s = .next (s.ended e.2 0 0)) ∧
    (∀ reg ∈ [0x00, 0x01, 0x02, 0x0E, 0x0F, 0x10, 0x11], exec (.wr reg) s = .next (s.faulted 3)) ∧
    (∀ reg, (reg = 0x03 ∨ 0x12 ≤ reg) → exec (.wr reg) s = .next (s.faulted 2))

/-- R152: no write latency. A RW register written by one transaction is read back by the next, bit for bit. -/
def Obligations.WrittenValueIsReadBackAtOnce : Prop :=
  ∀ (s : State) (reg : Nat) (v d : Word s.W) (rest : List (HostMove s.W)),
    reg ∈ [0x04, 0x05, 0x06, 0x07, 0x08, 0x09, 0x0A, 0x0B, 0x0C, 0x0D] →
    s.todo = .transaction (encode (.wr reg)) v :: .transaction (encode (.rd reg)) d :: rest →
    ∃ r : Regs s.W, Runs 2 s (s.ranTo r rest [⟨0, 0⟩, ⟨0, v⟩])

/-- R79: CLR_ERR sets STATUS.ERR to 0 and changes no other bit of STATUS and no other register; where STATUS.ERR is 0
it changes nothing. -/
def Obligations.ClrErrClearsOnlyErr : Prop :=
  decode 0x0C000000 = .ok .clrErr ∧
  ∀ s : State, ∃ st : Word s.W, exec .clrErr s = .next (s.ended { s.regs with status := st } 0 0) ∧
    (∀ k, st.getLsbD k = if k < 4 then false else s.regs.status.getLsbD k) ∧
    (s.regs.err = 0 → st = s.regs.status)

/-! ### Park-Miller (41_parkmiller.md) -/

/-- R81: the Schrage primitive is the source's structure: the quotient and remainder of `x` by `q`, one correction when
`t < 0` and none when `t = 0`; `schrage1` and `schrage2` are it at the constant sets 1 and 2. -/
def Obligations.SchrageIsTheWrittenDecomposition : Prop :=
  (∀ a m q r x hi lo : Int, 0 < q → x = q * hi + lo → 0 ≤ lo → lo < q →
    schrage a m q r x = if a * lo - r * hi < 0 then a * lo - r * hi + m else a * lo - r * hi) ∧
  (∀ x : Int, schrage1 x = schrage 16807 2147483647 127773 2836 x) ∧
  (∀ x : Int, schrage2 x = schrage 48271 536870911 11122 849 x)

/-- R83: where the Schrage results are exact. Set 1 on `[0, 96752654378]` and not at 96752654379, where it gives -781;
congruent modulo `m1` everywhere; set 2 on `[0, m2)`. -/
def Obligations.SchrageIsExactUpToItsBound : Prop :=
  (∀ x : Int, 0 ≤ x → x ≤ 96752654378 → schrage1 x = (16807 * x) % 2147483647) ∧
  (96752654379 : Int) = 127773 * 757223 ∧ (757223 : Int) = floorDiv 2147483647 2836 + 1 ∧
  floorDiv 96752654379 127773 = 757223 ∧ (2836 * 757223 : Int) = 2147484428 ∧
  schrage1 96752654379 = -781 ∧ (16807 * 96752654379 : Int) % 2147483647 = 2147482866 ∧
  (∀ x : Int, schrage1 x % 2147483647 = (16807 * x) % 2147483647) ∧
  (∀ x : Int, 0 ≤ x → x < 536870911 → schrage2 x = (48271 * x) % 536870911)

/-- R84: for every legal width and every W-bit signed `x`, both Schrage results fit in a W-bit signed register. -/
def Obligations.SchrageResultsFitTheRegister : Prop :=
  ∀ (w : Width) (x : Int), -(2 ^ (w.bits - 1)) ≤ x → x < 2 ^ (w.bits - 1) →
    (-(2 ^ (w.bits - 1)) ≤ schrage1 x ∧ schrage1 x < 2 ^ (w.bits - 1)) ∧
    (-(2 ^ (w.bits - 1)) ≤ schrage2 x ∧ schrage2 x < 2 ^ (w.bits - 1))

/-- R82: PM_STEP always succeeds, writes the Schrage result of PM_X, unwrapped, to PM_X, RES and `dout`, and changes
nothing else; with the values of the rule's corner cases. -/
def Obligations.PmStepWritesTheSchrageResult : Prop :=
  decode 0x20000000 = .ok .pmStep ∧
  (∀ s : State, ∃ y : Word s.W, sint y = schrage1 (sint s.regs.pmX) ∧
    exec .pmStep s = .next (s.ended { s.regs with pmX := y, res := y } 0 y)) ∧
  schrage1 0 = 0 ∧ schrage1 1 = 16807 ∧ schrage1 2147483646 = 2147466840 ∧ schrage1 2147483647 = 0 ∧
  schrage1 (2 ^ 31) = 16807 ∧ schrage1 (-1) = 2147466840 ∧ schrage1 (-2147483647) = 2147483647 ∧
  schrage1 96752654379 = -781 ∧ schrage1 (2 ^ 63 - 1) = -204718387707847109

/-- R109: from any state, WR PM_X then `n` PM_STEPs return the reference list `park_miller(seed, n)`, all with success,
and leave its last value in PM_X and, for `n >= 1`, in RES. -/
def Obligations.ParkMillerCallReturnsItsReferenceList : Prop :=
  ∀ (s : State) (seed : Word s.W) (n : Nat) (d : Word s.W) (rest : List (HostMove s.W)),
    s.todo = .transaction 0x08800000 seed :: List.replicate n (.transaction 0x20000000 d) ++ rest →
    ∃ (r : Regs s.W) (ys : List (Word s.W)),
      Runs (n + 1) s (s.ranTo r rest (⟨0, 0⟩ :: ys.map fun y => ⟨0, y⟩)) ∧
      ys.map sint = parkMiller (sint seed) n ∧
      r.pmX = (ys.getLast?).getD seed ∧ (1 ≤ n → some r.res = ys.getLast?)

/-! ### L'Ecuyer (42_lecuyer.md) -/

/-- R86: LEC_STEP always succeeds; it folds both streams, steps them with their own constant sets, and writes their
floor-mod difference to RES and `dout`, each in its range, and changes nothing else; with the rule's corner cases. -/
def Obligations.LecStepCombinesBothStreams : Prop :=
  decode 0x30000000 = .ok .lecStep ∧
  (∀ s : State, ∃ y1 y2 z : Word s.W,
    sint y1 = schrage1 (sint s.regs.lecX1 % 2147483647) ∧ 0 ≤ sint y1 ∧ sint y1 < 2147483647 ∧
    sint y2 = schrage2 (sint s.regs.lecX2 % 536870911) ∧ 0 ≤ sint y2 ∧ sint y2 < 536870911 ∧
    sint z = (sint y1 - sint y2) % 2147483647 ∧
    exec .lecStep s = .next (s.ended { s.regs with lecX1 := y1, lecX2 := y2, res := z } 0 z)) ∧
  (∀ e ∈ [((0 : Int), (0 : Int), (0 : Int)), (1, 1, 2147452183), (-1, 536870911, 2147466840),
      (2147483647, 0, 0), (123456789, 987654321, 81088441)],
    (schrage1 (e.1 % 2147483647) - schrage2 (e.2.1 % 536870911)) % 2147483647 = e.2.2) ∧
  schrage1 1 = 16807 ∧ schrage2 1 = 48271 ∧ (987654321 : Int) % 536870911 = 450783410 ∧
  schrage1 123456789 = 469049721 ∧ schrage2 450783410 = 387961280

/-- R88: the streams of LEC_STEP are the exact products modulo `m1` and `m2`, and the combination is one conditional
add, in `[0, m1)`. -/
def Obligations.LecStepStreamsAreExact : Prop :=
  ∀ s : State, ∃ (r : Regs s.W) (z : Word s.W), exec .lecStep s = .next (s.ended r 0 z) ∧
    sint r.lecX1 = (16807 * (sint s.regs.lecX1 % 2147483647)) % 2147483647 ∧
    sint r.lecX2 = (48271 * (sint s.regs.lecX2 % 536870911)) % 536870911 ∧
    -536870911 < sint r.lecX1 - sint r.lecX2 ∧ sint r.lecX1 - sint r.lecX2 < 2147483647 ∧
    sint z = (if sint r.lecX2 ≤ sint r.lecX1 then sint r.lecX1 - sint r.lecX2
      else sint r.lecX1 - sint r.lecX2 + 2147483647) ∧
    0 ≤ sint z ∧ sint z < 2147483647

/-- R110: from any state, the two seed writes then `n` LEC_STEPs return the reference list `lecuyer(seed1, seed2, n)`,
which folds the seeds once, all with success. -/
def Obligations.LecuyerCallReturnsItsReferenceList : Prop :=
  ∀ (s : State) (seed1 seed2 : Word s.W) (n : Nat) (d : Word s.W) (rest : List (HostMove s.W)),
    s.todo = .transaction 0x08A00000 seed1 :: .transaction 0x08C00000 seed2 ::
      List.replicate n (.transaction 0x30000000 d) ++ rest →
    ∃ (r : Regs s.W) (zs : List (Word s.W)),
      Runs (n + 2) s (s.ranTo r rest (⟨0, 0⟩ :: ⟨0, 0⟩ :: zs.map fun z => ⟨0, z⟩)) ∧
      zs.map sint = lecuyer (sint seed1) (sint seed2) n

/-! ### General LCG (43_lcg.md) -/

/-- R91: with `LCG_M > 0` LCG_STEP succeeds and writes the exact `(a * x + c) mod m` to LCG_X, RES and `dout` and
nothing else; with `LCG_M <= 0` it faults LCG_MODULUS. -/
def Obligations.LcgStepWritesTheExactResidue : Prop :=
  decode 0x40000000 = .ok .lcgStep ∧
  ∀ s : State,
    (0 < sint s.regs.lcgM → ∃ v : Word s.W,
      sint v = (sint s.regs.lcgA * sint s.regs.lcgX + sint s.regs.lcgC) % sint s.regs.lcgM ∧
      0 ≤ sint v ∧ sint v < sint s.regs.lcgM ∧
      exec .lcgStep s = .next (s.ended { s.regs with lcgX := v, res := v } 0 v)) ∧
    (sint s.regs.lcgM ≤ 0 → exec .lcgStep s = .next (s.faulted 4))

/-- R111: the four writes then `n` LCG_STEPs return the reference list `lcg(a, c, m, seed, n)`, all with success; where
that fails with InvalidParameter every LCG_STEP returns `resp = 4` and no value. -/
def Obligations.LcgCallReturnsItsReferenceList : Prop :=
  ∀ (s : State) (a c m seed : Word s.W) (n : Nat) (d : Word s.W) (rest : List (HostMove s.W)),
    s.todo = .transaction 0x08E00000 a :: .transaction 0x09000000 c :: .transaction 0x09200000 m ::
      .transaction 0x09400000 seed :: List.replicate n (.transaction 0x40000000 d) ++ rest →
    ∃ (r : Regs s.W) (xs : List (Response s.W)),
      Runs (n + 4) s (s.ranTo r rest (⟨0, 0⟩ :: ⟨0, 0⟩ :: ⟨0, 0⟩ :: ⟨0, 0⟩ :: xs)) ∧ xs.length = n ∧
      (∀ vs, lcg (sint a) (sint c) (sint m) (sint seed) n = some vs →
        (∀ x ∈ xs, x.resp = 0) ∧ xs.map (fun x => sint x.dout) = vs) ∧
      (lcg (sint a) (sint c) (sint m) (sint seed) n = none → ∀ x ∈ xs, x = ⟨4, 0⟩)

/-! ### Blum-Blum-Shub (44_bbs.md) -/

/-- R96: BBS_INIT. With `p ≠ q` and `0 < p * q < 2^(W-1)` it stores the modulus and the squared seed, clears the
accumulator, the count and the length, clears BBS_ARMED, and changes nothing else; otherwise it faults with the first
of the three codes, in the rule's order. -/
def Obligations.BbsInitStoresTheModulusAndSquaresTheSeed : Prop :=
  decode 0x50000000 = .ok .bbsInit ∧
  ∀ s : State,
    (sint s.regs.bbsP = sint s.regs.bbsQ → exec .bbsInit s = .next (s.faulted 5)) ∧
    (sint s.regs.bbsP ≠ sint s.regs.bbsQ → sint s.regs.bbsP * sint s.regs.bbsQ ≤ 0 →
      exec .bbsInit s = .next (s.faulted 6)) ∧
    (sint s.regs.bbsP ≠ sint s.regs.bbsQ → 2 ^ (s.W - 1) ≤ sint s.regs.bbsP * sint s.regs.bbsQ →
      exec .bbsInit s = .next (s.faulted 7)) ∧
    (sint s.regs.bbsP ≠ sint s.regs.bbsQ → 0 < sint s.regs.bbsP * sint s.regs.bbsQ →
      sint s.regs.bbsP * sint s.regs.bbsQ < 2 ^ (s.W - 1) → ∃ m x st : Word s.W,
        sint m = sint s.regs.bbsP * sint s.regs.bbsQ ∧
        sint x = (sint s.regs.bbsX * sint s.regs.bbsX) % sint m ∧
        (∀ k, st.getLsbD k = if k = 4 then false else s.regs.status.getLsbD k) ∧
        exec .bbsInit s = .next (s.ended
          { s.regs with status := st, bbsM := m, bbsX := x, bbsAcc := 0, bbsCnt := 0, bbsLen := 0 } 0 0))

/-- R97: BBS_DRAW. Configured and not armed, it draws the length `schrage1(BBS_X) mod 30` into BBS_LEN, BBS_CNT and
`dout`, clears the accumulator, sets BBS_ARMED, and changes nothing else, BBS_X included; otherwise it faults
BBS_NOT_CONFIGURED, then BBS_SEQUENCE. With the draws the rule works out. -/
def Obligations.BbsDrawDrawsTheLength : Prop :=
  decode 0x54000000 = .ok .bbsDraw ∧
  (∀ s : State,
    (sint s.regs.bbsM ≤ 0 → exec .bbsDraw s = .next (s.faulted 8)) ∧
    (0 < sint s.regs.bbsM → s.regs.armed = true → exec .bbsDraw s = .next (s.faulted 9)) ∧
    (0 < sint s.regs.bbsM → s.regs.armed = false → ∃ len st : Word s.W,
      sint len = schrage1 (sint s.regs.bbsX) % 30 ∧ 0 ≤ sint len ∧ sint len ≤ 29 ∧
      (∀ k, st.getLsbD k = if k = 4 then true else s.regs.status.getLsbD k) ∧
      exec .bbsDraw s = .next (s.ended
        { s.regs with status := st, bbsLen := len, bbsCnt := len, bbsAcc := 0 } 0 len))) ∧
  schrage1 1510170121941 = -30024265074 ∧ (-30024265074 : Int) % 30 = 6 ∧ schrage1 0 % 30 = 0 ∧
  schrage1 9 = 151263 ∧ (151263 : Int) % 30 = 3

/-- R100: BBS_BIT. Configured, armed and with bits still to generate, it squares the state, shifts the low bit of the
NEW state into the accumulator, counts down, returns the bit, and changes nothing else; otherwise it faults. The
invariant of R38, which every reachable state has, keeps the accumulator and the count in range. -/
def Obligations.BbsBitSquaresAndShiftsInTheLowBit : Prop :=
  decode 0x58000000 = .ok .bbsBit ∧
  ∀ s : State,
    (sint s.regs.bbsM ≤ 0 → exec .bbsBit s = .next (s.faulted 8)) ∧
    (0 < sint s.regs.bbsM → (s.regs.armed = false ∨ sint s.regs.bbsCnt = 0) →
      exec .bbsBit s = .next (s.faulted 9)) ∧
    (s.regs.Inv → s.regs.armed = true → sint s.regs.bbsCnt ≠ 0 → ∃ x acc cnt b : Word s.W,
      sint x = (sint s.regs.bbsX * sint s.regs.bbsX) % sint s.regs.bbsM ∧ sint b = sint x % 2 ∧
      sint acc = 2 * sint s.regs.bbsAcc + sint b ∧ sint cnt = sint s.regs.bbsCnt - 1 ∧
      exec .bbsBit s = .next (s.ended { s.regs with bbsX := x, bbsAcc := acc, bbsCnt := cnt } 0 b))

/-- R101: the bit order. From an empty accumulator with `L` bits still to generate, `L` BBS_BITs all succeed and leave
`BBS_ACC = Σ b_i * 2^(L-1-i)`, the bits being those returned, in order: the first is the most significant. -/
def Obligations.FirstBitIsTheMostSignificant : Prop :=
  ∀ (s : State) (L : Nat) (d : Word s.W) (rest : List (HostMove s.W)),
    s.todo = List.replicate L (.transaction 0x58000000 d) ++ rest →
    s.regs.Inv → s.regs.armed = true → sint s.regs.bbsCnt = L → sint s.regs.bbsAcc = 0 →
    ∃ (r : Regs s.W) (bs : List (Word s.W)),
      Runs L s (s.ranTo r rest (bs.map fun b => ⟨0, b⟩)) ∧ bs.length = L ∧ (∀ b ∈ bs, sint b = 0 ∨ sint b = 1) ∧
      sint r.bbsCnt = 0 ∧
      sint r.bbsAcc = ∑ i ∈ Finset.range L, sint (bs.getD i 0) * 2 ^ (L - 1 - i)

/-- R102: BBS_EMIT. Armed with no bit still to generate, it returns the accumulator, writes it to RES, clears the
accumulator and BBS_ARMED, and changes nothing else; otherwise it faults BBS_SEQUENCE. -/
def Obligations.BbsEmitOutputsTheAccumulator : Prop :=
  decode 0x5C000000 = .ok .bbsEmit ∧
  ∀ s : State,
    ((s.regs.armed = false ∨ sint s.regs.bbsCnt ≠ 0) → exec .bbsEmit s = .next (s.faulted 9)) ∧
    (s.regs.armed = true → sint s.regs.bbsCnt = 0 → ∃ st : Word s.W,
      (∀ k, st.getLsbD k = if k = 4 then false else s.regs.status.getLsbD k) ∧
      exec .bbsEmit s = .next (s.ended
        { s.regs with status := st, res := s.regs.bbsAcc, bbsAcc := 0 } 0 s.regs.bbsAcc))

/-- R104: BBS_NEXT. Configured and not armed, it draws `L`, squares the state `L` times, and outputs the integer whose
bits are the low bits of the new states, the first one most significant; the iterates are written `f^[i]`. It changes
only BBS_X, BBS_LEN, BBS_CNT, BBS_ACC and RES; otherwise it faults. -/
def Obligations.BbsNextOutputsOneWholeValue : Prop :=
  decode 0x60000000 = .ok .bbsNext ∧
  ∀ s : State,
    (sint s.regs.bbsM ≤ 0 → exec .bbsNext s = .next (s.faulted 8)) ∧
    (0 < sint s.regs.bbsM → s.regs.armed = true → exec .bbsNext s = .next (s.faulted 9)) ∧
    (0 < sint s.regs.bbsM → s.regs.armed = false → ∃ (L : Nat) (x len out : Word s.W),
      (L : Int) = schrage1 (sint s.regs.bbsX) % 30 ∧ sint len = L ∧ L ≤ 29 ∧
      sint x = (fun y : Int => (y * y) % sint s.regs.bbsM)^[L] (sint s.regs.bbsX) ∧
      sint out = ∑ i ∈ Finset.range L,
        ((fun y : Int => (y * y) % sint s.regs.bbsM)^[i + 1] (sint s.regs.bbsX) % 2) * 2 ^ (L - 1 - i) ∧
      exec .bbsNext s = .next (s.ended
        { s.regs with bbsX := x, bbsLen := len, bbsCnt := 0, bbsAcc := 0, res := out } 0 out))

/-- R105: BBS_NEXT is the composition of its parts. In state IDLE with `BBS_M > 0`, BBS_DRAW, `L` BBS_BITs (`L` the
length BBS_DRAW returns) and BBS_EMIT all succeed and leave the very registers BBS_NEXT leaves, the last response
carrying BBS_NEXT's value. -/
def Obligations.BbsNextIsTheCompositionOfItsParts : Prop :=
  ∀ s : State, 0 < sint s.regs.bbsM → s.regs.armed = false →
    ∃ (r : Regs s.W) (v : Word s.W), exec .bbsNext s = .next (s.ended r 0 v) ∧
      ∀ (L : Nat) (d : Word s.W) (rest : List (HostMove s.W)), (L : Int) = sint r.bbsLen →
        s.todo = .transaction 0x54000000 d :: List.replicate L (.transaction 0x58000000 d) ++
          .transaction 0x5C000000 d :: rest →
        ∃ bs : List (Word s.W), bs.length = L ∧
          Runs (L + 2) s (s.ranTo r rest (⟨0, r.bbsLen⟩ :: bs.map (fun b => ⟨0, b⟩) ++ [⟨0, v⟩]))

/-- R112: from any state, the three writes, BBS_INIT and `n` BBS_NEXTs return the reference list `bbs(p, q, seed, n)`,
all with success, where that does not fail and the modulus fits; where it fails with InvalidParameter, BBS_INIT faults
with code 5 or 6. -/
def Obligations.BbsCallReturnsItsReferenceList : Prop :=
  ∀ (s : State) (p q seed : Word s.W) (n : Nat) (d : Word s.W) (rest : List (HostMove s.W)),
    s.todo = .transaction 0x09600000 p :: .transaction 0x09800000 q :: .transaction 0x09A00000 seed ::
      .transaction 0x50000000 d :: List.replicate n (.transaction 0x60000000 d) ++ rest →
    (∀ vs, bbs (sint p) (sint q) (sint seed) n = some vs → sint p * sint q < 2 ^ (s.W - 1) →
      ∃ (r : Regs s.W) (zs : List (Word s.W)),
        Runs (n + 4) s (s.ranTo r rest
          (⟨0, 0⟩ :: ⟨0, 0⟩ :: ⟨0, 0⟩ :: ⟨0, 0⟩ :: zs.map fun z => ⟨0, z⟩)) ∧ zs.map sint = vs) ∧
    (bbs (sint p) (sint q) (sint seed) n = none →
      ∃ (r : Regs s.W) (c : RespCode), (c = 5 ∨ c = 6) ∧
        Runs 4 s (s.ranTo r (List.replicate n (.transaction 0x60000000 d) ++ rest)
          [⟨0, 0⟩, ⟨0, 0⟩, ⟨0, 0⟩, ⟨c, 0⟩]))

/-- R115, for the BBS engine: the two factor writes, BBS_INIT and the write of the saved state resume a suspended
stream. From any state they all succeed, and BBS_NEXT then answers what it would have answered where the stream was
suspended, in state IDLE with that modulus, and leaves the same BBS_X. -/
def Obligations.SavedBbsStreamIsResumed : Prop :=
  ∀ (s : State) (p q d : Word s.W) (old : Regs s.W) (rest : List (HostMove s.W)),
    sint p ≠ sint q → 0 < sint p * sint q → sint old.bbsM = sint p * sint q → old.armed = false →
    s.todo = .transaction 0x09600000 p :: .transaction 0x09800000 q :: .transaction 0x50000000 d ::
      .transaction 0x09A00000 old.bbsX :: rest →
    ∃ r r₁ r₂ : Regs s.W, ∃ v : Word s.W,
      Runs 4 s (s.ranTo r rest [⟨0, 0⟩, ⟨0, 0⟩, ⟨0, 0⟩, ⟨0, 0⟩]) ∧
      exec .bbsNext { s with regs := old } = .next (State.ended { s with regs := old } r₁ 0 v) ∧
      exec .bbsNext { s with regs := r } = .next (State.ended { s with regs := r } r₂ 0 v) ∧ r₁.bbsX = r₂.bbsX

/-! ### Pseudo-instructions (30_encoding.md) -/

/-- The transactions each pseudo-instruction expands to, for values that fit the width (R68), REP of WR for every
register index. That the data word of BBS_INIT, and of a repeated command other than WR, is 0 is log 13 (DESIGN
CHOICE): the unit ignores it (R47) and R68 does not say it. -/
def Obligations.PseudoInstructionsExpandToTheirTransactions : Prop :=
  ∀ (w : Width) (a b c d : Word w.bits) (i : Instr) (n : Nat),
    assembleLine w.bits (.pmSeed (sint a)) = some [.transaction 0x08800000 a] ∧
    assembleLine w.bits (.lecSeed (sint a) (sint b)) =
      some [.transaction 0x08A00000 a, .transaction 0x08C00000 b] ∧
    assembleLine w.bits (.lcgSet (sint a) (sint b) (sint c) (sint d)) =
      some [.transaction 0x08E00000 a, .transaction 0x09000000 b, .transaction 0x09200000 c,
        .transaction 0x09400000 d] ∧
    assembleLine w.bits (.bbsSetup (sint a) (sint b) (sint c)) =
      some [.transaction 0x09600000 a, .transaction 0x09800000 b, .transaction 0x09A00000 c,
        .transaction 0x50000000 0] ∧
    assembleLine w.bits (.rep n (.plain i)) = some (List.replicate n (.transaction (encode i) 0)) ∧
    (∀ reg, reg < 32 → assembleLine w.bits (.rep n (.write reg (sint a))) =
      some (List.replicate n (.transaction (0x08000000 ||| BitVec.ofNat 32 (reg <<< 21)) a)))
end

