-- ==== Sys2Proof/Laws/Arith.lean ====
section
/-! SUPPORT. The arithmetic operations once and for all: the signed reading and writing of a word (00_scope.md R9), the
floor operations (R10), the Schrage primitive (41_parkmiller.md R81) and the loop of BBS_NEXT (44_bbs.md R104). -/

namespace Sys2Proof.Machine

open Sys2Proof.Config (Width)

/-! ### Words -/

theorem sint_lt {W : Nat} (b : Word W) : sint b < 2 ^ (W - 1) := by
  have h := BitVec.toInt_lt (x := b)
  rcases W with _ | W
  · simp [sint, BitVec.toInt] at *
    omega
  · simpa [sint] using h

theorem le_sint {W : Nat} (b : Word W) : -(2 ^ (W - 1)) ≤ sint b := by
  have h := BitVec.le_toInt (x := b)
  simpa [sint] using h

/-- Writing in the signed range is the two's-complement pattern. -/
theorem bits_of_range {W : Nat} {v : Int} (h₁ : -(2 ^ (W - 1)) ≤ v) (h₂ : v < 2 ^ (W - 1)) :
    bits W v = BitVec.ofInt W v := by
  rw [bits, if_pos]
  push_cast
  exact ⟨h₁, h₂⟩

/-- Reading what was written, in the signed range. -/
theorem sint_bits {W : Nat} (hW : 0 < W) {v : Int} (h₁ : -(2 ^ (W - 1)) ≤ v) (h₂ : v < 2 ^ (W - 1)) :
    sint (bits W v) = v := by
  rw [bits_of_range h₁ h₂]
  unfold sint
  rw [BitVec.toInt_ofInt]
  obtain ⟨n, rfl⟩ : ∃ n, W = n + 1 := ⟨W - 1, by omega⟩
  simp only [Nat.add_sub_cancel] at h₁ h₂
  have e : ((2 ^ (n + 1) : Nat) : Int) = 2 * 2 ^ n := by push_cast; ring
  unfold Int.bmod
  rw [e]
  generalize hp : (2 : Int) ^ n = P at *
  rcases lt_or_ge v 0 with hv | hv
  · have : v % (2 * P) = v + 2 * P := by
      rw [← Int.add_emod_right]; exact Int.emod_eq_of_lt (by omega) (by omega)
    rw [this]; dsimp only; split <;> omega
  · have : v % (2 * P) = v := Int.emod_eq_of_lt hv (by omega)
    rw [this]; dsimp only; split <;> omega

/-- Writing what was read. -/
@[simp] theorem bits_sint {W : Nat} (b : Word W) : bits W (sint b) = b := by
  rw [bits_of_range (le_sint b) (sint_lt b), sint, BitVec.ofInt_toInt]

@[simp] theorem bits_zero (W : Nat) : bits W 0 = 0#W := by
  have h : (0 : Int) < 2 ^ (W - 1) := by positivity
  rw [bits_of_range (by omega) h]
  simp

@[simp] theorem sint_zero (W : Nat) : sint (0#W) = 0 := by
  simp [sint]

theorem sint_inj {W : Nat} {a b : Word W} (h : sint a = sint b) : a = b := by
  rw [← bits_sint a, h, bits_sint]

/-- Half the range of a register of any legal width. -/
theorem Width.half_ge (w : Width) : (9223372036854775808 : Int) ≤ 2 ^ (w.bits - 1) := by
  have h : (2 : Int) ^ 63 ≤ 2 ^ (w.bits - 1) := pow_le_pow_right₀ (by norm_num) (by have := w.ge_64; omega)
  norm_num at h ⊢; exact h

theorem Width.bits_pos (w : Width) : 0 < w.bits := by have := w.ge_64; omega

/-- A small integer is read back unchanged at every legal width. -/
theorem sint_bits_small (w : Width) {v : Int} (h₁ : -9223372036854775808 ≤ v) (h₂ : v < 9223372036854775808) :
    sint (bits w.bits v) = v := by
  have := Width.half_ge w
  exact sint_bits (Width.bits_pos w) (by omega) (by omega)

/-! ### Floor division -/

theorem floorDiv_eq {x y : Int} (hy : 0 ≤ y) : floorDiv x y = x / y :=
  Int.fdiv_eq_ediv_of_nonneg x hy

theorem floorMod_eq {x y : Int} (hy : 0 ≤ y) : floorMod x y = x % y := by
  rw [floorMod, floorDiv_eq hy, Int.emod_def]

theorem floorMod_nonneg {x y : Int} (hy : 0 < y) : 0 ≤ floorMod x y := by
  rw [floorMod_eq hy.le]; exact Int.emod_nonneg _ (by omega)

theorem floorMod_lt {x y : Int} (hy : 0 < y) : floorMod x y < y := by
  rw [floorMod_eq hy.le]; exact Int.emod_lt_of_pos _ hy

/-! ### Schrage -/

/-- `schrage1` with plain division (R6, R81). -/
theorem schrage1_eq (x : Int) :
    schrage1 x = if 16807 * (x - 127773 * (x / 127773)) - 2836 * (x / 127773) < 0
      then 16807 * (x - 127773 * (x / 127773)) - 2836 * (x / 127773) + 2147483647
      else 16807 * (x - 127773 * (x / 127773)) - 2836 * (x / 127773) := by
  simp only [schrage1, schrage, m1, floorDiv_eq (show (0 : Int) ≤ 127773 by norm_num)]

/-- `schrage2` with plain division (R7, R81). -/
theorem schrage2_eq (x : Int) :
    schrage2 x = if 48271 * (x - 11122 * (x / 11122)) - 849 * (x / 11122) < 0
      then 48271 * (x - 11122 * (x / 11122)) - 849 * (x / 11122) + 536870911
      else 48271 * (x - 11122 * (x / 11122)) - 849 * (x / 11122) := by
  simp only [schrage2, schrage, m2, floorDiv_eq (show (0 : Int) ≤ 11122 by norm_num)]

theorem schrage1_range {x : Int} (h₀ : 0 ≤ x) (h₁ : x < 2147483647) :
    0 ≤ schrage1 x ∧ schrage1 x < 2147483647 := by
  rw [schrage1_eq]; split <;> omega

theorem schrage2_range {x : Int} (h₀ : 0 ≤ x) (h₁ : x < 536870911) :
    0 ≤ schrage2 x ∧ schrage2 x < 536870911 := by
  rw [schrage2_eq]; split <;> omega

theorem lecNext1_range (x : Int) : 0 ≤ lecNext1 x ∧ lecNext1 x < 2147483647 :=
  schrage1_range (floorMod_nonneg (by decide)) (floorMod_lt (by decide))

theorem lecNext2_range (x : Int) : 0 ≤ lecNext2 x ∧ lecNext2 x < 536870911 :=
  schrage2_range (floorMod_nonneg (by decide)) (floorMod_lt (by decide))

theorem lecCombine_range (y₁ y₂ : Int) : 0 ≤ lecCombine y₁ y₂ ∧ lecCombine y₁ y₂ < 2147483647 :=
  ⟨floorMod_nonneg (by decide), floorMod_lt (by decide)⟩

/-! ### LCG and BBS -/

theorem lcgNext_range {a c m x : Int} (hm : 0 < m) : 0 ≤ lcgNext a c m x ∧ lcgNext a c m x < m :=
  ⟨floorMod_nonneg hm, floorMod_lt hm⟩

theorem bbsSquare_range {m x : Int} (hm : 0 < m) : 0 ≤ bbsSquare m x ∧ bbsSquare m x < m :=
  ⟨floorMod_nonneg hm, floorMod_lt hm⟩

theorem bbsDrawLength_range (x : Int) : 0 ≤ bbsDrawLength x ∧ bbsDrawLength x < 30 :=
  ⟨floorMod_nonneg (by decide), floorMod_lt (by decide)⟩

theorem bbsLowBit_cases (x : Int) : bbsLowBit x = 0 ∨ bbsLowBit x = 1 := by
  have h₀ := floorMod_nonneg (x := x) (y := 2) (by decide)
  have h₁ := floorMod_lt (x := x) (y := 2) (by decide)
  unfold bbsLowBit
  omega

@[simp] theorem bbsCollect_zero (m x acc : Int) : bbsCollect m 0 x acc = (x, acc) := rfl

@[simp] theorem bbsCollect_succ (m : Int) (n : Nat) (x acc : Int) :
    bbsCollect m (n + 1) x acc = bbsCollect m n (bbsSquare m x) (2 * acc + bbsLowBit (bbsSquare m x)) := rfl

/-- The accumulator keeps its place-value bound through the loop (10_state.md R35). -/
theorem bbsCollect_acc_range (m : Int) (n : Nat) (x acc : Int) (h₀ : 0 ≤ acc) :
    acc * 2 ^ n ≤ (bbsCollect m n x acc).2 ∧ (bbsCollect m n x acc).2 < (acc + 1) * 2 ^ n := by
  induction n generalizing x acc with
  | zero => simp
  | succ n ih =>
    rw [bbsCollect_succ]
    have hb := bbsLowBit_cases (bbsSquare m x)
    obtain ⟨l, u⟩ := ih (bbsSquare m x) (2 * acc + bbsLowBit (bbsSquare m x)) (by omega)
    have hp : (0 : Int) < 2 ^ n := by positivity
    have e : (2 : Int) ^ (n + 1) = 2 * 2 ^ n := by ring
    rcases hb with hb | hb <;> rw [hb] at l u ⊢ <;> constructor <;> nlinarith

/-- The state of the loop stays in `[0, m)` (10_state.md R44). -/
theorem bbsCollect_state_range {m : Int} (hm : 0 < m) (n : Nat) (x acc : Int) (h₀ : 0 ≤ x) (h₁ : x < m) :
    0 ≤ (bbsCollect m n x acc).1 ∧ (bbsCollect m n x acc).1 < m := by
  induction n generalizing x acc with
  | zero => exact ⟨h₀, h₁⟩
  | succ n ih => exact ih _ _ (bbsSquare_range hm).1 (bbsSquare_range hm).2

/-- After at least one squaring the state is in `[0, m)`, wherever it started. -/
theorem bbsCollect_state_range_succ {m : Int} (hm : 0 < m) (n : Nat) (x acc : Int) :
    0 ≤ (bbsCollect m (n + 1) x acc).1 ∧ (bbsCollect m (n + 1) x acc).1 < m :=
  bbsCollect_state_range hm n _ _ (bbsSquare_range hm).1 (bbsSquare_range hm).2

end Sys2Proof.Machine
end

