-- ==== Sys2Proof/Laws/Decode.lean ====
section
/-! SUPPORT. The decoder and the encoder field by field (30_encoding.md R60, R63, R64). -/

namespace Sys2Proof

/-- The opcodes that R63 leaves unassigned are those `commandOf` rejects. -/
theorem commandOf_eq_none (op reg : Nat) :
    commandOf op reg = none ↔
      op ∉ [0x00, 0x01, 0x02, 0x03, 0x08, 0x0C, 0x10, 0x14, 0x15, 0x16, 0x17, 0x18] := by
  unfold commandOf
  split <;> simp_all

/-- A command read from the opcode map has that opcode, and that register operand where it has one. -/
theorem commandOf_some {op reg : Nat} {i : Instr} (h : commandOf op reg = some i) :
    (opcodeOf i).toNat = op ∧ (i.regOperand = none ∨ i.regOperand = some reg) := by
  unfold commandOf at h
  split at h <;> simp at h <;> subst h <;> simp [opcodeOf, Instr.regOperand]

/-- The opcode map read backwards. -/
theorem commandOf_opcodeOf (i : Instr) (reg : Nat) (h : i.regOperand = none ∨ i.regOperand = some reg) :
    commandOf (opcodeOf i).toNat reg = some i := by
  cases i <;> simp [opcodeOf, commandOf, Instr.regOperand] at h ⊢ <;> exact h.symm

/-- The field OP of an encoded command (R60, R63). -/
theorem opField_encode (i : Instr) : opField (encode i) = (opcodeOf i).toNat := by
  unfold opField encode
  congr 1
  apply BitVec.eq_of_getLsbD_eq
  intro k hk
  simp only [BitVec.getLsbD_extractLsb', BitVec.getLsbD_append, hk]
  simp [show ¬ (26 + k < 21) by omega, show 26 + k - 21 - 5 = k by omega, show ¬ (26 + k - 21 < 5) by omega]

/-- The field REG of an encoded command: its register operand's low five bits, 0 where it has none (R60, R61). -/
theorem regField_encode (i : Instr) : regField (encode i) = i.regOperand.getD 0 % 32 := by
  unfold regField encode
  have h : (opcodeOf i ++ BitVec.ofNat 5 (i.regOperand.getD 0) ++ 0#21).extractLsb' 21 5 =
      BitVec.ofNat 5 (i.regOperand.getD 0) := by
    apply BitVec.eq_of_getLsbD_eq
    intro k hk
    simp only [BitVec.getLsbD_extractLsb', BitVec.getLsbD_append, hk]
    simp [hk, show ¬ (21 + k < 21) by omega, show 21 + k - 21 = k by omega]
  rw [h]
  simp

/-- The reserved field ZERO of an encoded command (R60). -/
theorem zeroField_encode (i : Instr) : zeroField (encode i) = 0 := by
  unfold zeroField encode
  have h : (opcodeOf i ++ BitVec.ofNat 5 (i.regOperand.getD 0) ++ 0#21).extractLsb' 0 21 = 0#21 := by
    apply BitVec.eq_of_getLsbD_eq
    intro k hk
    simp only [BitVec.getLsbD_extractLsb', BitVec.getLsbD_append, hk]
    simp [hk]
  rw [h]
  simp

/-- The three fields are the whole word (R60). -/
theorem word_eq_of_fields {w v : CmdWord} (h₁ : opField w = opField v) (h₂ : regField w = regField v)
    (h₃ : zeroField w = zeroField v) : w = v := by
  unfold opField regField zeroField at *
  simp only [BitVec.extractLsb'_toNat, Nat.shiftRight_eq_div_pow] at *
  apply BitVec.eq_of_toNat_eq
  have := w.isLt
  have := v.isLt
  omega

end Sys2Proof
end

