-- ==== Sys2Proof/Laws/Flags.lean ====
section
/-! SUPPORT. The status bits: one lemma per field per update (10_state.md R21). -/

namespace Sys2Proof.Machine

variable {W : Nat} (r : Regs W)

/-- A bit that is set stands below the width. -/
theorem getLsbD_and_lt (b : BitVec W) (k : Nat) : (decide (k < W) && b.getLsbD k) = b.getLsbD k := by
  by_cases hk : k < W
  · rw [decide_eq_true hk, Bool.true_and]
  · rw [BitVec.getLsbD_of_ge b k (by omega), Bool.and_false]

/-- What `setErr` does to each bit of STATUS. -/
theorem setErr_getLsbD (c : RespCode) (k : Nat) :
    (r.setErr c).status.getLsbD k = if k < 4 then decide (k < W) && c.getLsbD k else r.status.getLsbD k := by
  simp only [Regs.setErr, BitVec.getLsbD_or, BitVec.getLsbD_and, BitVec.getLsbD_not, BitVec.getLsbD_setWidth,
    BitVec.getLsbD_allOnes]
  have h := getLsbD_and_lt r.status k
  by_cases hk : k < 4
  · have : r.status.getLsbD k = true → k < W := fun h => BitVec.lt_of_getLsbD h
    by_cases hw : k < W <;> simp_all
  · have hc : c.getLsbD k = false := BitVec.getLsbD_of_ge _ _ (by omega)
    rw [hc, if_neg hk, decide_eq_false hk, ← h]
    cases decide (k < W) <;> cases r.status.getLsbD k <;> rfl

/-- What `setArmed` does to each bit of STATUS. -/
theorem setArmed_getLsbD (b : Bool) (k : Nat) :
    (r.setArmed b).status.getLsbD k = if k = 4 then decide (4 < W) && b else r.status.getLsbD k := by
  have h := getLsbD_and_lt r.status k
  have e : (BitVec.twoPow W 4).getLsbD k = (decide (4 < W) && decide (k = 4)) := by
    rw [BitVec.getLsbD_twoPow, decide_eq_decide.mpr (eq_comm (a := 4) (b := k))]
  cases b
  · simp only [Regs.setArmed, Bool.false_eq_true, if_false, BitVec.getLsbD_and, BitVec.getLsbD_not, e]
    by_cases hk : k = 4
    · subst hk
      have : r.status.getLsbD 4 = true → 4 < W := fun h => BitVec.lt_of_getLsbD h
      by_cases hw : 4 < W <;> simp_all
    · rw [if_neg hk, decide_eq_false hk, ← h]
      cases decide (k < W) <;> cases r.status.getLsbD k <;> cases decide (4 < W) <;> rfl
  · simp only [Regs.setArmed, if_true, BitVec.getLsbD_or, e]
    by_cases hk : k = 4
    · subst hk
      have : r.status.getLsbD 4 = true → 4 < W := fun h => BitVec.lt_of_getLsbD h
      by_cases hw : 4 < W
      · rw [decide_eq_true hw]; simp only [decide_true, Bool.and_true, Bool.or_true, if_true]
      · rw [BitVec.getLsbD_of_ge r.status 4 (by omega), decide_eq_false hw]; rfl
    · rw [if_neg hk, decide_eq_false hk, Bool.and_false, Bool.or_false]

theorem err_getLsbD (k : Nat) : r.err.getLsbD k = (decide (k < 4) && r.status.getLsbD k) := by
  simp only [Regs.err, BitVec.getLsbD_extractLsb', Nat.zero_add]

theorem err_setErr (hW : 4 ≤ W) (c : RespCode) : (r.setErr c).err = c := by
  apply BitVec.eq_of_getLsbD_eq
  intro k hk
  rw [err_getLsbD, setErr_getLsbD, if_pos hk, decide_eq_true hk, decide_eq_true (by omega), Bool.true_and,
    Bool.true_and]

@[simp] theorem armed_setErr (c : RespCode) : (r.setErr c).armed = r.armed := by
  rw [Regs.armed, setErr_getLsbD, if_neg (by decide)]; rfl

@[simp] theorem err_setArmed (b : Bool) : (r.setArmed b).err = r.err := by
  apply BitVec.eq_of_getLsbD_eq
  intro k hk
  rw [err_getLsbD, setArmed_getLsbD, if_neg (by omega), err_getLsbD]

theorem armed_setArmed (hW : 4 < W) (b : Bool) : (r.setArmed b).armed = b := by
  rw [Regs.armed, setArmed_getLsbD, if_pos rfl, decide_eq_true hW, Bool.true_and]

/-- Writing the code that is there changes nothing. -/
theorem setErr_err : r.setErr r.err = r := by
  have h : (r.setErr r.err).status = r.status := by
    apply BitVec.eq_of_getLsbD_eq
    intro k hk
    rw [setErr_getLsbD]
    split
    · next h => rw [err_getLsbD, decide_eq_true h, decide_eq_true hk, Bool.true_and, Bool.true_and]
    · rfl
  calc r.setErr r.err = { r with status := (r.setErr r.err).status } := rfl
    _ = r := by rw [h]

/-- Clearing BBS_ARMED after setting it gives back a file in which it was clear (R105's parts). -/
theorem setArmed_status_of_armed (b : Bool) (h : r.armed = b) (hW : 4 < W) : (r.setArmed b).status = r.status := by
  apply BitVec.eq_of_getLsbD_eq
  intro k _
  rw [setArmed_getLsbD]
  split
  · next hk => subst hk; rw [← h, decide_eq_true hW, Bool.true_and]; rfl
  · rfl

/-- The two cases of the sticky record (R22). -/
theorem recordFault_eq (c : RespCode) : r.recordFault c = if r.err = 0 then r.setErr c else r := rfl

theorem err_recordFault (hW : 4 ≤ W) (c : RespCode) : (r.recordFault c).err = if r.err = 0 then c else r.err := by
  rw [recordFault_eq]; split
  · exact err_setErr r hW c
  · rfl

@[simp] theorem armed_recordFault (c : RespCode) : (r.recordFault c).armed = r.armed := by
  rw [recordFault_eq]; split <;> simp

/-- Recording a fault touches only the four ERR bits. -/
theorem recordFault_getLsbD (c : RespCode) {k : Nat} (hk : 4 ≤ k) :
    (r.recordFault c).status.getLsbD k = r.status.getLsbD k := by
  rw [recordFault_eq]; split
  · rw [setErr_getLsbD]; simp [show ¬ k < 4 by omega]
  · rfl

/-- Recording a fault writes no register but STATUS (R126). -/
theorem recordFault_frame (c : RespCode) : r.recordFault c = { r with status := (r.recordFault c).status } := by
  rw [recordFault_eq]; split <;> rfl

/-- Every fault's code is one of 1 to 9 (R122). -/
theorem Fault.code_range (f : Fault) : f.code ≠ 0 ∧ f.code.toNat ≤ 9 := by
  cases f <;> decide

/-- Different faults have different codes (R122). -/
theorem Fault.code_injective (f g : Fault) (h : f.code = g.code) : f = g := by
  revert h; cases f <;> cases g <;> decide

end Sys2Proof.Machine
end

