-- ==== Sys2Proof/Laws/PerInstr.lean ====
section
/-! SUPPORT. The statement made command by command: the three fields of a well-formed command's word
(30_encoding.md R60, R61, R63). -/

namespace Sys2Proof.Laws.EncodeFieldsLegal

open Sys2Proof

/-- A well-formed command's word has the command's OP, its register operand in REG (0 where it has none) and 0 in
ZERO. -/
def Statement (i : Instr) : Prop :=
  i.wellFormed = true →
    opField (encode i) = (opcodeOf i).toNat ∧ regField (encode i) = i.regOperand.getD 0 ∧ zeroField (encode i) = 0

/-- The fields of any command whose register operand, if any, is at most 31. -/
theorem of_operand_lt (i : Instr) (h : i.regOperand.getD 0 < 32) :
    opField (encode i) = (opcodeOf i).toNat ∧ regField (encode i) = i.regOperand.getD 0 ∧ zeroField (encode i) = 0 :=
  ⟨opField_encode i, by rw [regField_encode, Nat.mod_eq_of_lt h], zeroField_encode i⟩

theorem nop : Statement .nop := fun _ => of_operand_lt _ (by decide)
theorem rd (reg : Nat) : Statement (.rd reg) := fun h => of_operand_lt _ (of_decide_eq_true h)
theorem wr (reg : Nat) : Statement (.wr reg) := fun h => of_operand_lt _ (of_decide_eq_true h)
theorem clrErr : Statement .clrErr := fun _ => of_operand_lt _ (by decide)
theorem pmStep : Statement .pmStep := fun _ => of_operand_lt _ (by decide)
theorem lecStep : Statement .lecStep := fun _ => of_operand_lt _ (by decide)
theorem lcgStep : Statement .lcgStep := fun _ => of_operand_lt _ (by decide)
theorem bbsInit : Statement .bbsInit := fun _ => of_operand_lt _ (by decide)
theorem bbsDraw : Statement .bbsDraw := fun _ => of_operand_lt _ (by decide)
theorem bbsBit : Statement .bbsBit := fun _ => of_operand_lt _ (by decide)
theorem bbsEmit : Statement .bbsEmit := fun _ => of_operand_lt _ (by decide)
theorem bbsNext : Statement .bbsNext := fun _ => of_operand_lt _ (by decide)

end Sys2Proof.Laws.EncodeFieldsLegal
end

