-- ==== Sys2Proof/Laws/State.lean ====
section
/-! SUPPORT. The updates of State and of the register file, one lemma per field per update, and what each shared
operation of Machine/Ops.lean can do. -/

namespace Sys2Proof.Machine

variable (s : State) (r : Regs s.W) (c : RespCode) (d : Word s.W)

/-! ### How a transaction ends -/



/-- All that `respond` does. -/
theorem respond_eq : s.respond r c d = s.ended r c d := rfl

/-- All that success does: `resp = 0` with the command's registers and `dout`. -/
theorem complete_eq : s.complete r d = s.ended r 0 d := rfl

/-- All that the taking of a fault does (R126). -/
theorem takeFault_eq (f : Fault) : s.takeFault f = s.faulted f.code := rfl

/-- All that a command's effect does to the state: success or one fault, and always one response (R48, R126). -/
theorem conclude_eq (e : Effect s.W) :
    s.conclude e = (match e with
      | .ok x => s.ended x.1 0 x.2
      | .error f => s.faulted f.code) := by
  cases e <;> rfl

@[simp] theorem conclude_ok (x : Regs s.W × Word s.W) : s.conclude (.ok x) = s.ended x.1 0 x.2 := rfl
@[simp] theorem conclude_error (f : Fault) : s.conclude (.error f) = s.faulted f.code := rfl

/-- A fault as an ended transaction: the sticky record and nothing else. -/
theorem faulted_eq : s.faulted c = s.ended (s.regs.recordFault c) c 0 := rfl

/-- An illegal word faults ILLEGAL_COMMAND, whichever check it fails (R64). -/
theorem rejectWord_eq (e : DecodeError) : s.rejectWord e = s.faulted 1 := by cases e <;> rfl

/-- All that the reset move does (R144). -/
theorem takeReset_eq : s.takeReset = s.ranTo (Regs.reset s.W) s.todo.tail [] := by
  simp [State.takeReset, State.ranTo]

@[simp] theorem takeReset_width : s.takeReset.width = s.width := rfl
@[simp] theorem takeReset_regs : s.takeReset.regs = Regs.reset s.W := rfl
@[simp] theorem takeReset_todo : s.takeReset.todo = s.todo.tail := rfl
@[simp] theorem takeReset_answered : s.takeReset.answered = s.answered := rfl

@[simp] theorem issue_width (cmd : CmdWord) : (s.issue cmd d).width = s.width := rfl
@[simp] theorem issue_regs (cmd : CmdWord) : (s.issue cmd d).regs = s.regs := rfl
@[simp] theorem issue_todo (cmd : CmdWord) : (s.issue cmd d).todo = .transaction cmd d :: s.todo := rfl
@[simp] theorem issue_answered (cmd : CmdWord) : (s.issue cmd d).answered = s.answered := rfl


/-- The data word of the transaction on the port. -/
theorem din_eq {cmd : CmdWord} {rest : List (HostMove s.W)} (h : s.todo = .transaction cmd d :: rest) :
    s.din = d := by
  simp [State.din, h]

/-! ### The step -/

/-- The four cases of a step, by the host's next move. -/
theorem step_nil (h : s.todo = []) : step s = .next s := by simp [step, h]

theorem step_reset {rest : List (HostMove s.W)} (h : s.todo = .reset :: rest) : step s = .next s.takeReset := by
  simp [step, h]

theorem step_ok {cmd : CmdWord} {rest : List (HostMove s.W)} {i : Instr} (h : s.todo = .transaction cmd d :: rest)
    (hd : decode cmd = .ok i) : step s = exec i s := by
  simp [step, h, hd]

theorem step_error {cmd : CmdWord} {rest : List (HostMove s.W)} {e : DecodeError}
    (h : s.todo = .transaction cmd d :: rest) (hd : decode cmd = .error e) : step s = .next (s.faulted 1) := by
  simp [step, h, hd, rejectWord_eq]

/-- The effect of each command on the registers, given the data word of its transaction. -/
def effectOf {W : Nat} (i : Instr) (din : Word W) (r : Regs W) : Effect W :=
  match i with
  | .nop => nopEffect r
  | .rd reg => rdEffect reg r
  | .wr reg => wrEffect reg din r
  | .clrErr => clrErrEffect r
  | .pmStep => pmStepEffect r
  | .lecStep => lecStepEffect r
  | .lcgStep => lcgStepEffect r
  | .bbsInit => bbsInitEffect r
  | .bbsDraw => bbsDrawEffect r
  | .bbsBit => bbsBitEffect r
  | .bbsEmit => bbsEmitEffect r
  | .bbsNext => bbsNextEffect r

/-- Every command is its effect on the registers, concluded: a claim about `exec` is one about a function of the
registers. -/
theorem exec_eq (i : Instr) : exec i s = .next (s.conclude (effectOf i s.din s.regs)) := by
  cases i <;> rfl

/-- The effect of a transaction on the registers: that of its decoded command, or ILLEGAL_COMMAND (R64). -/
def wordEffect {W : Nat} (cmd : CmdWord) (din : Word W) (r : Regs W) : Effect W :=
  match decode cmd with
  | .ok i => effectOf i din r
  | .error _ => .error .illegalCommand

/-- A step on a transaction is its effect on the registers, concluded: one lemma for all that a transaction can do. -/
theorem step_transaction {cmd : CmdWord} {rest : List (HostMove s.W)} (h : s.todo = .transaction cmd d :: rest) :
    step s = .next (s.conclude (wordEffect cmd d s.regs)) := by
  cases hd : decode cmd with
  | error e => rw [step_error s d h hd, wordEffect, hd]; rfl
  | ok i => rw [step_ok s d h hd, exec_eq, din_eq s d h, wordEffect, hd]

/-- The response code of an effect. -/
def effectCode {W : Nat} : Effect W → RespCode
  | .ok _ => 0
  | .error f => f.code

/-- The `dout` of an effect. -/
def effectDout {W : Nat} : Effect W → Word W
  | .ok x => x.2
  | .error _ => 0

/-- The registers an effect leaves, from the registers `q` it met. -/
def effectRegs {W : Nat} (q : Regs W) : Effect W → Regs W
  | .ok x => x.1
  | .error f => q.recordFault f.code

/-- A concluded effect is an ended transaction: its registers, its code and its `dout`. -/
theorem conclude_ended (e : Effect s.W) :
    s.conclude e = s.ended (effectRegs s.regs e) (effectCode e) (effectDout e) := by
  cases e <;> rfl

@[simp] theorem effectCode_ok {W : Nat} (x : Regs W × Word W) : effectCode (.ok x) = 0 := rfl
@[simp] theorem effectCode_error {W : Nat} (f : Fault) : effectCode (.error f : Effect W) = f.code := rfl
@[simp] theorem effectDout_ok {W : Nat} (x : Regs W × Word W) : effectDout (.ok x) = x.2 := rfl
@[simp] theorem effectDout_error {W : Nat} (f : Fault) : effectDout (.error f : Effect W) = 0 := rfl
@[simp] theorem effectRegs_ok {W : Nat} (q : Regs W) (x : Regs W × Word W) : effectRegs q (.ok x) = x.1 := rfl
@[simp] theorem effectRegs_error {W : Nat} (q : Regs W) (f : Fault) :
    effectRegs q (.error f) = q.recordFault f.code := rfl

/-- An effect faults exactly when its code is not 0. -/
theorem effectCode_eq_zero {W : Nat} (e : Effect W) : effectCode e = 0 ↔ ∃ x, e = .ok x := by
  cases e with
  | ok x => simp
  | error f => exact iff_of_false (Fault.code_range f).1 fun ⟨_, h⟩ => by cases h

/-! ### The register file -/

section Fields
variable {W : Nat} (q : Regs W) (e : RespCode) (b : Bool)

@[simp] theorem setErr_res : (q.setErr e).res = q.res := rfl
@[simp] theorem setErr_pmX : (q.setErr e).pmX = q.pmX := rfl
@[simp] theorem setErr_lecX1 : (q.setErr e).lecX1 = q.lecX1 := rfl
@[simp] theorem setErr_lecX2 : (q.setErr e).lecX2 = q.lecX2 := rfl
@[simp] theorem setErr_lcgA : (q.setErr e).lcgA = q.lcgA := rfl
@[simp] theorem setErr_lcgC : (q.setErr e).lcgC = q.lcgC := rfl
@[simp] theorem setErr_lcgM : (q.setErr e).lcgM = q.lcgM := rfl
@[simp] theorem setErr_lcgX : (q.setErr e).lcgX = q.lcgX := rfl
@[simp] theorem setErr_bbsP : (q.setErr e).bbsP = q.bbsP := rfl
@[simp] theorem setErr_bbsQ : (q.setErr e).bbsQ = q.bbsQ := rfl
@[simp] theorem setErr_bbsX : (q.setErr e).bbsX = q.bbsX := rfl
@[simp] theorem setErr_bbsM : (q.setErr e).bbsM = q.bbsM := rfl
@[simp] theorem setErr_bbsAcc : (q.setErr e).bbsAcc = q.bbsAcc := rfl
@[simp] theorem setErr_bbsCnt : (q.setErr e).bbsCnt = q.bbsCnt := rfl
@[simp] theorem setErr_bbsLen : (q.setErr e).bbsLen = q.bbsLen := rfl

@[simp] theorem setArmed_res : (q.setArmed b).res = q.res := rfl
@[simp] theorem setArmed_pmX : (q.setArmed b).pmX = q.pmX := rfl
@[simp] theorem setArmed_lecX1 : (q.setArmed b).lecX1 = q.lecX1 := rfl
@[simp] theorem setArmed_lecX2 : (q.setArmed b).lecX2 = q.lecX2 := rfl
@[simp] theorem setArmed_lcgA : (q.setArmed b).lcgA = q.lcgA := rfl
@[simp] theorem setArmed_lcgC : (q.setArmed b).lcgC = q.lcgC := rfl
@[simp] theorem setArmed_lcgM : (q.setArmed b).lcgM = q.lcgM := rfl
@[simp] theorem setArmed_lcgX : (q.setArmed b).lcgX = q.lcgX := rfl
@[simp] theorem setArmed_bbsP : (q.setArmed b).bbsP = q.bbsP := rfl
@[simp] theorem setArmed_bbsQ : (q.setArmed b).bbsQ = q.bbsQ := rfl
@[simp] theorem setArmed_bbsX : (q.setArmed b).bbsX = q.bbsX := rfl
@[simp] theorem setArmed_bbsM : (q.setArmed b).bbsM = q.bbsM := rfl
@[simp] theorem setArmed_bbsAcc : (q.setArmed b).bbsAcc = q.bbsAcc := rfl
@[simp] theorem setArmed_bbsCnt : (q.setArmed b).bbsCnt = q.bbsCnt := rfl
@[simp] theorem setArmed_bbsLen : (q.setArmed b).bbsLen = q.bbsLen := rfl

@[simp] theorem recordFault_res : (q.recordFault e).res = q.res := by rw [recordFault_frame]
@[simp] theorem recordFault_pmX : (q.recordFault e).pmX = q.pmX := by rw [recordFault_frame]
@[simp] theorem recordFault_lecX1 : (q.recordFault e).lecX1 = q.lecX1 := by rw [recordFault_frame]
@[simp] theorem recordFault_lecX2 : (q.recordFault e).lecX2 = q.lecX2 := by rw [recordFault_frame]
@[simp] theorem recordFault_lcgA : (q.recordFault e).lcgA = q.lcgA := by rw [recordFault_frame]
@[simp] theorem recordFault_lcgC : (q.recordFault e).lcgC = q.lcgC := by rw [recordFault_frame]
@[simp] theorem recordFault_lcgM : (q.recordFault e).lcgM = q.lcgM := by rw [recordFault_frame]
@[simp] theorem recordFault_lcgX : (q.recordFault e).lcgX = q.lcgX := by rw [recordFault_frame]
@[simp] theorem recordFault_bbsP : (q.recordFault e).bbsP = q.bbsP := by rw [recordFault_frame]
@[simp] theorem recordFault_bbsQ : (q.recordFault e).bbsQ = q.bbsQ := by rw [recordFault_frame]
@[simp] theorem recordFault_bbsX : (q.recordFault e).bbsX = q.bbsX := by rw [recordFault_frame]
@[simp] theorem recordFault_bbsM : (q.recordFault e).bbsM = q.bbsM := by rw [recordFault_frame]
@[simp] theorem recordFault_bbsAcc : (q.recordFault e).bbsAcc = q.bbsAcc := by rw [recordFault_frame]
@[simp] theorem recordFault_bbsCnt : (q.recordFault e).bbsCnt = q.bbsCnt := by rw [recordFault_frame]
@[simp] theorem recordFault_bbsLen : (q.recordFault e).bbsLen = q.bbsLen := by rw [recordFault_frame]

/-- `clearErr` is the write of 0 to ERR (R79). -/
theorem clearErr_eq : q.clearErr = q.setErr 0 := rfl

end Fields

end Sys2Proof.Machine
end

