-- ==== Sys2Proof/Laws/Run.lean ====
section
/-! SUPPORT. Runs of several transactions (45_sequence_contracts.md R117): a list of transactions is a function of the
registers. -/

namespace Sys2Proof.Machine

open Sys2Proof.Config (Width)

theorem runs_zero (s : State) : Runs 0 s s := rfl

theorem runs_succ {k : Nat} {s t u : State} (h : step s = .next t) (h' : Runs k t u) : Runs (k + 1) s u := by
  unfold Runs at *
  have hs : core.step s = .next t := h
  change (Host.Core.run core (k + 1) s : Host.Outcome core.State core.Fault core.Refusal) = _
  simp only [Host.Core.run, hs]
  exact h'

/-- The registers that a list of transactions leaves, and the responses it gets, in order (R49, R117). -/
def runTransactions {W : Nat} : List (CmdWord × Word W) → Regs W → Regs W × List (Response W)
  | [], r => (r, [])
  | c :: cs, r =>
    let e := wordEffect c.1 c.2 r
    let x := runTransactions cs (effectRegs r e)
    (x.1, ⟨effectCode e, effectDout e⟩ :: x.2)

@[simp] theorem runTransactions_nil {W : Nat} (r : Regs W) : runTransactions [] r = (r, []) := rfl

theorem runTransactions_append {W : Nat} (as bs : List (CmdWord × Word W)) (r : Regs W) :
    runTransactions (as ++ bs) r =
      ((runTransactions bs (runTransactions as r).1).1,
        (runTransactions as r).2 ++ (runTransactions bs (runTransactions as r).1).2) := by
  induction as generalizing r with
  | nil => rfl
  | cons a as ih => simp only [List.cons_append, runTransactions, ih]

/-- The run over a list of transactions, for states written out. -/
theorem runs_transactions_mk (w : Width) (cs : List (CmdWord × Word w.bits)) (r : Regs w.bits)
    (rest : List (HostMove w.bits)) (answered : List (Response w.bits)) :
    Runs cs.length ⟨w, r, cs.map (fun c => .transaction c.1 c.2) ++ rest, answered⟩
      ⟨w, (runTransactions cs r).1, rest, answered ++ (runTransactions cs r).2⟩ := by
  induction cs generalizing r answered with
  | nil =>
    rw [runTransactions_nil, List.append_nil]
    exact runs_zero _
  | cons c cs ih =>
    have hs := step_transaction (⟨w, r, (c :: cs).map (fun c => .transaction c.1 c.2) ++ rest, answered⟩ : State) c.2
      (cmd := c.1) (rest := cs.map (fun c => .transaction c.1 c.2) ++ rest) rfl
    rw [conclude_ended] at hs
    refine runs_succ hs ?_
    have h := ih (effectRegs r (wordEffect c.1 c.2 r))
      (answered ++ [⟨effectCode (wordEffect c.1 c.2 r), effectDout (wordEffect c.1 c.2 r)⟩])
    simp only [List.append_assoc] at h
    exact h

/-- The run over the transactions that stand first among a state's pending moves. -/
theorem runs_transactions (s : State) (cs : List (CmdWord × Word s.W)) (rest : List (HostMove s.W))
    (h : s.todo = cs.map (fun c => .transaction c.1 c.2) ++ rest) :
    Runs cs.length s (s.ranTo (runTransactions cs s.regs).1 rest (runTransactions cs s.regs).2) := by
  have hr := runs_transactions_mk s.width cs s.regs rest s.answered
  rw [← h] at hr
  exact hr

end Sys2Proof.Machine
end

