-- ==== Sys2Proof/Tests/Slice0.lean ====
section
/-! SUPPORT. Tests of the model's author: the smoke test of WellFormed, command words written out bit by bit, one-step
tests with the values of spec/95_test_vectors.md, and a witness for the hypotheses of each statement. -/

namespace Sys2Proof.Tests

open Sys2Proof Sys2Proof.Machine Sys2Proof.Config

/-! ### WellFormed -/

theorem test_rd_of_index_32_is_ill_formed : (Instr.rd 32).wellFormed = false := by decide
theorem test_wr_of_index_32_is_ill_formed : (Instr.wr 32).wellFormed = false := by decide
theorem test_rd_of_unimplemented_index_is_well_formed : (Instr.rd 31).wellFormed = true := by decide

/-! ### Command words, written out from R60 and R63: OP 31:26, REG 25:21, ZERO 20:0 -/

theorem test_decode_nop : decode 0b000000_00000_000000000000000000000#32 = .ok .nop := by decide
theorem test_decode_rd_pm_x : decode 0b000001_00100_000000000000000000000#32 = .ok (.rd 0x04) := by decide
theorem test_decode_rd_31 : decode 0b000001_11111_000000000000000000000#32 = .ok (.rd 0x1F) := by decide
theorem test_decode_wr_bbs_len : decode 0b000010_10001_000000000000000000000#32 = .ok (.wr 0x11) := by decide
theorem test_decode_clr_err : decode 0b000011_00000_000000000000000000000#32 = .ok .clrErr := by decide
theorem test_decode_pm_step : decode 0b001000_00000_000000000000000000000#32 = .ok .pmStep := by decide
theorem test_decode_lec_step : decode 0b001100_00000_000000000000000000000#32 = .ok .lecStep := by decide
theorem test_decode_lcg_step : decode 0b010000_00000_000000000000000000000#32 = .ok .lcgStep := by decide
theorem test_decode_bbs_init : decode 0b010100_00000_000000000000000000000#32 = .ok .bbsInit := by decide
theorem test_decode_bbs_draw : decode 0b010101_00000_000000000000000000000#32 = .ok .bbsDraw := by decide
theorem test_decode_bbs_bit : decode 0b010110_00000_000000000000000000000#32 = .ok .bbsBit := by decide
theorem test_decode_bbs_emit : decode 0b010111_00000_000000000000000000000#32 = .ok .bbsEmit := by decide
theorem test_decode_bbs_next : decode 0b011000_00000_000000000000000000000#32 = .ok .bbsNext := by decide

/-- V-DEC-2 to V-DEC-5, and the opcode after the last assigned one. -/
theorem test_decode_illegal_words :
    decode 0x00000001 = .error .zeroFieldNotZero ∧ decode 0x10000000 = .error .unassignedOpcode ∧
    decode 0x20200000 = .error .registerFieldNotZero ∧ decode 0xFC000000 = .error .unassignedOpcode ∧
    decode 0x64000000 = .error .unassignedOpcode ∧ decode 0x04900000 = .error .zeroFieldNotZero := by decide

/-- Words of the table 30_encoding.md R66, encoded. -/
theorem test_encode_words :
    encode (.rd 0x11) = 0x06200000 ∧ encode (.wr 0x0D) = 0x09A00000 ∧ encode (.wr 0x1F) = 0x0BE00000 ∧
    encode .bbsNext = 0x60000000 := by decide

theorem test_table_word : decodeTableWord 32 0x09200000 = some (.wr 0x09) ∧ decodeTableWord 32 0x20200000 = none := by
  decide

/-! ### One step -/

/-- A unit of width 128 with the registers `r` and the moves `ms` pending. -/
def unit (r : Regs 128) (ms : List (HostMove 128)) : State :=
  { width := Width.default, regs := r, todo := ms, answered := [] }

/-- The next state, where an outcome is one. -/
def nextState : Host.Outcome State Fault Refusal → Option State
  | .next t => some t
  | .fault _ => none
  | .refused _ => none

theorem eq_next {o : Host.Outcome State Fault Refusal} {t : State} (h : nextState o = some t) : o = .next t := by
  cases o <;> simp_all [nextState]

/-- One step on one transaction: the response, `dout` as a signed integer, and the register `n` after it. -/
def observeAt (w : Width) (cmd : CmdWord) (din : Int) (r : Regs w.bits) (n : RegName) : Option (Nat × Int × Int) :=
  match step { width := w, regs := r, todo := [.transaction cmd (bits w.bits din)], answered := [] } with
  | .next t => t.answered.getLast?.map fun x => (x.resp.toNat, sint x.dout, sint (t.regs.read n))
  | .fault _ => none
  | .refused _ => none

/-- `observeAt` at the default width. -/
def observe (cmd : CmdWord) (din : Int) (r : Regs 128) (n : RegName) : Option (Nat × Int × Int) :=
  observeAt Width.default cmd din r n

/-- The reset registers at the default width. -/
def zero : Regs 128 := Regs.reset 128

/-- The registers of an LCG with these parameters (V-LCG). -/
def lcgRegs (a c m x : Int) : Regs 128 :=
  { zero with lcgA := bits 128 a, lcgC := bits 128 c, lcgM := bits 128 m, lcgX := bits 128 x }

/-- A BBS engine before BBS_INIT (V-BBS-I). -/
def seeded (p q x : Int) : Regs 128 := { zero with bbsP := bits 128 p, bbsQ := bits 128 q, bbsX := bits 128 x }

/-- A configured BBS engine (modulus 209, the examples of 44_bbs.md), with STATUS, the count, the length and the
accumulator given. -/
def bbsRegs (x status cnt len acc : Int) : Regs 128 :=
  { zero with
    bbsM := bits 128 209, bbsX := bits 128 x, status := bits 128 status, bbsCnt := bits 128 cnt,
    bbsLen := bits 128 len, bbsAcc := bits 128 acc }

/-- V-DEC-1. -/
theorem test_nop : observe 0x00000000 77 (bbsRegs 9 25 2 3 1) .status = some (0, 0, 25) := by decide +kernel
/-- V-HA-1, V-HA-2. -/
theorem test_rd_id :
    observe 0x04200000 0 zero .id = some (0, 65664, 65664) ∧
    observeAt Width.least 0x04200000 0 (Regs.reset 64) .id = some (0, 65600, 65600) := by decide +kernel
/-- V-DEC-6, V-DEC-7. -/
theorem test_rd_unimplemented :
    observe 0x04600000 0 zero .status = some (2, 0, 2) ∧ observe 0x07E00000 0 zero .status = some (2, 0, 2) := by
  decide +kernel
/-- V-HA-3. -/
theorem test_wr_pm_x : observe 0x08800000 (-5) zero .pmX = some (0, 0, -5) := by decide +kernel
/-- V-DEC-8, V-DEC-10, V-DEC-11. -/
theorem test_wr_faults :
    observe 0x08000000 5 zero .status = some (3, 0, 3) ∧ observe 0x0A200000 7 zero .bbsLen = some (3, 0, 0) ∧
    observe 0x08600000 7 zero .status = some (2, 0, 2) := by decide +kernel
/-- V-HA-5. -/
theorem test_clr_err : observe 0x0C000000 0 (bbsRegs 9 19 3 3 0) .status = some (0, 0, 16) := by decide +kernel
/-- V-HA-6: an illegal word does not overwrite the first code. -/
theorem test_illegal_word_keeps_first_code :
    observe 0x10000000 0 { zero with status := 2#128 } .status = some (1, 0, 2) := by decide +kernel
/-- V-PM-C7: floor division, and a result equal to the modulus. -/
theorem test_pm_step_negative :
    observe 0x20000000 0 { zero with pmX := bits 128 (-2147483647) } .pmX = some (0, 2147483647, 2147483647) := by
  decide +kernel
/-- V-PM-C10. -/
theorem test_pm_step_extreme :
    observeAt Width.least 0x20000000 0 { Regs.reset 64 with pmX := bits 64 9223372036854775807 } .res =
      some (0, -204718387707847109, -204718387707847109) := by decide +kernel
/-- V-LEC-C3: the fold of a negative seed and of `m2`. -/
theorem test_lec_step_fold :
    observe 0x30000000 0 { zero with lecX1 := bits 128 (-1), lecX2 := bits 128 536870911 } .lecX2 =
      some (0, 2147466840, 0) := by decide +kernel
/-- V-LEC-C2: the negative difference. -/
theorem test_lec_step_difference :
    observe 0x30000000 0 { zero with lecX1 := bits 128 1, lecX2 := bits 128 1 } .res =
      some (0, 2147452183, 2147452183) := by decide +kernel
/-- V-LCG-C7, and V-LCG-C10, which needs the exact product. -/
theorem test_lcg_step :
    observe 0x40000000 0 (lcgRegs (-3) 5 7 2) .lcgX = some (0, 6, 6) ∧
    observeAt Width.least 0x40000000 0
      { Regs.reset 64 with
        lcgA := bits 64 (2 ^ 62), lcgC := bits 64 (2 ^ 62), lcgM := bits 64 (2 ^ 61 + 1), lcgX := bits 64 (-(2 ^ 63)) }
      .res = some (0, 2305843009213693943, 2305843009213693943) := by decide +kernel
/-- V-LCG-C3. -/
theorem test_lcg_step_negative_modulus : observe 0x40000000 0 (lcgRegs 9 4 (-5) 100) .lcgX = some (4, 0, 100) := by
  decide +kernel
/-- V-BBS-I6. -/
theorem test_bbs_init : observe 0x50000000 0 (seeded (-3) (-7) 5) .bbsX = some (0, 0, 4) := by decide +kernel
/-- V-BBS-I3, V-BBS-I5, V-BBS-I8. -/
theorem test_bbs_init_faults :
    observe 0x50000000 0 zero .status = some (5, 0, 5) ∧ observe 0x50000000 0 (seeded (-3) 7 5) .bbsX = some (6, 0, 5) ∧
    observeAt Width.least 0x50000000 0
      { Regs.reset 64 with bbsP := bits 64 4294967311, bbsQ := bits 64 4294967291 } .bbsM = some (7, 0, 0) := by
  decide +kernel
/-- V-BBS-D5: the draw is not the reduced Park-Miller value. -/
theorem test_bbs_draw : observe 0x54000000 0 (bbsRegs 1510170121941 0 0 0 0) .bbsCnt = some (0, 6, 6) := by
  decide +kernel
/-- V-BBS-S1, V-BBS-S5. -/
theorem test_bbs_draw_faults :
    observe 0x54000000 0 zero .status = some (8, 0, 8) ∧ observe 0x54000000 0 (bbsRegs 9 16 3 3 0) .bbsCnt = some (9, 0, 3) := by
  decide +kernel
/-- Program P4, steps 11 and 13: the bit is the new state's. -/
theorem test_bbs_bit :
    observe 0x58000000 0 (bbsRegs 9 16 3 3 0) .bbsX = some (0, 1, 81) ∧
    observe 0x58000000 0 (bbsRegs 81 16 2 3 1) .bbsAcc = some (0, 0, 2) := by decide +kernel
/-- V-BBS-S3, V-BBS-S6. -/
theorem test_bbs_bit_faults :
    observe 0x58000000 0 (bbsRegs 9 0 0 0 0) .status = some (9, 0, 9) ∧
    observe 0x58000000 0 (bbsRegs 36 16 0 3 4) .bbsAcc = some (9, 0, 4) := by decide +kernel
/-- Program P4, step 16: STATUS.ERR is kept and BBS_ARMED cleared. -/
theorem test_bbs_emit :
    observe 0x5C000000 0 (bbsRegs 36 24 0 3 4) .status = some (0, 4, 8) ∧
    observe 0x5C000000 0 (bbsRegs 36 24 0 3 4) .bbsAcc = some (0, 4, 0) := by decide +kernel
/-- Program P4, steps 7 and 12. -/
theorem test_bbs_emit_faults :
    observe 0x5C000000 0 (bbsRegs 9 8 0 0 0) .status = some (9, 0, 8) ∧
    observe 0x5C000000 0 (bbsRegs 81 24 2 3 1) .bbsAcc = some (9, 0, 1) := by decide +kernel
/-- V-BBS-1, the first value and a later one. -/
theorem test_bbs_next :
    observe 0x60000000 0 (bbsRegs 9 0 0 0 0) .bbsX = some (0, 4, 36) ∧
    observe 0x60000000 0 (bbsRegs 36 0 0 3 0) .bbsLen = some (0, 364, 12) := by decide +kernel
/-- V-BBS-4: a draw of 0 gives 0 and leaves the state. -/
theorem test_bbs_next_empty : observe 0x60000000 0 (bbsRegs 180 0 0 0 0) .bbsX = some (0, 0, 180) := by decide +kernel

/-- The host's placing of a table word: WR LCG_M with `din` 0 (the example of R78). -/
theorem test_with_fetch_word :
    nextState (step (State.reset.withFetchWord 32 0x09200000)) = some (State.reset.ended State.reset.regs 0 0) := by
  decide +kernel

/-! ### The reference functions (45_sequence_contracts.md) and the assembler (30_encoding.md R67, R68) -/

/-- E2, V-PM-1, V-LEC-2, V-BBS-4 and V-BBS-I3. -/
theorem test_reference_functions :
    parkMiller 1 3 = [16807, 282475249, 1622650073] ∧ lecuyer 1 1 3 = [2147452183, 99869452, 1404839884] ∧
    lcg 1 1 10 0 5 = some [1, 2, 3, 4, 5] ∧ lcg 1 1 0 0 5 = none ∧ bbs 11 19 25 3 = some [104, 0, 0] ∧
    bbs 0 0 1 1 = none := by decide +kernel

/-- The words of program P2's steps 5 and 6, and a value too wide for the register (R67). -/
theorem test_assemble_lines :
    readLine "WR LCG_M, 0x80000000 ; modulus".toList = some (.command (.write 0x09 2147483648)) ∧
    readLine "RD r31".toList = some (.command (.plain (.rd 31))) ∧
    readLine "BBS_SETUP 11, 19, -3".toList = some (.bbsSetup 11 19 (-3)) ∧
    assembleCommand 128 (.write 0x09 2147483648) = some (.transaction 0x09200000 2147483648#128) ∧
    assembleCommand 64 (.write 0x04 (2 ^ 63)) = none := by decide +kernel

/-- Two host threads, one order of the arbiter (R49). -/
theorem test_serialise :
    serialise [1, 0, 1, 1, 0] [[HostMove.reset, .transaction 0x20000000 0#64], [.transaction 0x30000000 1#64]] =
      [.transaction 0x30000000 1#64, .reset, .transaction 0x20000000 0#64] := by decide +kernel

/-! ### Witnesses for the hypotheses of the statements -/

/-- R10: a positive divisor. -/
theorem test_witness_floor_division : (0 : Int) < 1 ∧ floorDiv (-7) 3 = -3 ∧ floorMod (-7) 3 = 2 := by decide +kernel

/-- R9: both ends of the signed range at `W = 64`. -/
theorem test_witness_signed_range :
    (-(2 ^ (Width.least.bits - 1)) : Int) ≤ -(2 ^ 63) ∧ ((2 ^ 63 - 1 : Int) < 2 ^ (Width.least.bits - 1)) ∧
    sint (bits 64 (-(2 ^ 63))) = -(2 ^ 63) ∧ sint (bits 64 (2 ^ 63 - 1)) = 2 ^ 63 - 1 := by decide +kernel

/-- The hypotheses of AssignedOpcodesDecodeToTheirCommands: the last index, and an unassigned OP. -/
theorem test_witness_assigned_opcodes :
    (31 : Nat) < 32 ∧ ((0xFC000000#32).extractLsb' 26 6).toNat ∉
      [0x00, 0x01, 0x02, 0x03, 0x08, 0x0C, 0x10, 0x14, 0x15, 0x16, 0x17, 0x18] := by decide

/-- The hypotheses of LegalWordsAreExactlyTheSeventyFour: a legal word, an illegal word on the port, and the ends of
both ranges of unimplemented indices. -/
theorem test_witness_legal_words :
    decode 0x0BE00000 = .ok (.wr 31) ∧
    ((unit zero [.transaction 0x00000001 0#128]).todo = .transaction 0x00000001 0#128 :: [] ∧
      decode 0x00000001 = .error .zeroFieldNotZero) ∧
    ((0x12 : Nat) ≤ 0x12 ∧ 0x12 < 32) ∧ ((0x12 : Nat) ≤ 0x1F ∧ 0x1F < 32) := by decide

/-- A transaction on the port whose word decodes: the hypotheses of StepRunsTheDecodedCommand,
EveryTransactionCompletes, FirstConditionInPriorityOrderIsReported and ResHoldsTheLastOutput (a step command, with
`resp` 0). -/
theorem test_witness_transaction :
    (unit zero [.transaction 0x20000000 7#128, .reset]).todo = .transaction 0x20000000 7#128 :: [.reset] ∧
    decode 0x20000000 = .ok .pmStep ∧ (∃ i ∈ [Instr.pmStep, .lecStep, .lcgStep, .bbsEmit, .bbsNext],
      decode 0x20000000 = .ok i) ∧ responseCode zero 0x20000000 = 0 :=
  ⟨rfl, by decide, ⟨.pmStep, by decide, by decide⟩, by decide +kernel⟩

/-- A reset move, and no move at all (StepRunsTheDecodedCommand, ErrKeepsTheFirstFault,
ArmedChangesOnlyAtDrawEmitInitAndReset, ResetZeroesEveryRegisterButId). -/
theorem test_witness_reset_and_idle :
    (unit (bbsRegs 9 25 2 3 1) [.reset]).todo = .reset :: [] ∧ (unit zero []).todo = [] ∧
    nextState (step (unit (bbsRegs 9 25 2 3 1) [.reset])) = some (unit zero []) := by decide +kernel

/-- A transaction that faults, with STATUS.ERR 0 and with STATUS.ERR set (FaultsArePrecise, ErrKeepsTheFirstFault). -/
theorem test_witness_fault :
    nextState (step (unit zero [.transaction 0x40000000 0#128])) =
      some ((unit zero []).ended { zero with status := 4#128 } 4 0) ∧
    nextState (step (unit { zero with status := 2#128 } [.transaction 0x40000000 0#128])) =
      some ((unit zero []).ended { zero with status := 2#128 } 4 0) := by decide +kernel

/-- The other cases of ErrKeepsTheFirstFault: a success that is no CLR_ERR, CLR_ERR, and the greatest code. -/
theorem test_witness_err :
    decode 0x00000000 ≠ .ok .clrErr ∧ decode 0x0C000000 = .ok .clrErr ∧
    responseCode (bbsRegs 9 25 2 3 1) 0x00000000 = 0 ∧ (bbsRegs 9 25 2 3 1).err.toNat ≤ 9 := by decide +kernel

/-- The cases of ArmedChangesOnlyAtDrawEmitInitAndReset: each of the four commands with `resp` 0, a fault, and a
command that is none of them. -/
theorem test_witness_armed :
    (responseCode (bbsRegs 9 0 0 0 0) 0x54000000 = 0 ∧ decode 0x54000000 = .ok .bbsDraw) ∧
    (responseCode (bbsRegs 36 16 0 3 4) 0x5C000000 = 0 ∧ decode 0x5C000000 = .ok .bbsEmit) ∧
    (responseCode (seeded 11 19 3) 0x50000000 = 0 ∧ decode 0x50000000 = .ok .bbsInit) ∧
    (responseCode (bbsRegs 9 0 0 0 0) 0x60000000 = 0 ∧ decode 0x60000000 = .ok .bbsNext) ∧
    responseCode (bbsRegs 9 16 3 3 0) 0x54000000 ≠ 0 ∧ decode 0x20000000 ≠ .ok .bbsDraw := by decide +kernel

/-- FaultsAreNotTransient: the same faulting transaction twice. -/
theorem test_witness_not_transient :
    (unit zero [.transaction 0x54000000 0#128, .transaction 0x54000000 0#128]).todo =
      .transaction 0x54000000 0#128 :: .transaction 0x54000000 0#128 :: [] ∧
    responseCode zero 0x54000000 ≠ 0 := by decide +kernel

/-- OneStatusReadChecksABatch: a batch with a fault in it from STATUS.ERR 0, a batch begun by CLR_ERR from STATUS.ERR
9, and the empty batch. -/
theorem test_witness_batch :
    (([(0x00000000, 0#128), (0x40000000, 0#128)] : List (CmdWord × Word 128)).tail = [(0x40000000, 0#128)] ∧
      decode 0x40000000 ≠ .ok .clrErr ∧ zero.err = 0) ∧
    (([(0x0C000000, 0#128), (0x40000000, 0#128)] : List (CmdWord × Word 128)).head? = some (0x0C000000, 0#128) ∧
      decode 0x0C000000 = .ok .clrErr ∧ (bbsRegs 9 9 0 0 0).err = 9) ∧
    (unit zero []).todo = ([] : List (CmdWord × Word 128)).map (fun c => .transaction c.1 c.2) ++ [] := by
  decide +kernel

/-- StickyErrorBlocksNoCommand: a command that is no RD STATUS. -/
theorem test_witness_sticky :
    (unit zero [.transaction 0x04200000 0#128]).todo = .transaction 0x04200000 0#128 :: [] ∧
    decode 0x04200000 ≠ .ok (.rd 0x00) := by decide

theorem reservedZero_of_lt (r : Regs 128) (h : r.status.toNat < 32) : r.ReservedZero := by
  intro i hi
  rw [BitVec.getLsbD]
  exact Nat.testBit_lt_two_pow (lt_of_lt_of_le h (Nat.pow_le_pow_right (show 0 < 2 by decide) hi))

/-- StatusReadsErrAndArmed: reserved bits 0 with every other bit of the greatest values set. -/
theorem test_witness_reserved_zero : (bbsRegs 9 25 3 3 0).ReservedZero := reservedZero_of_lt _ (by decide +kernel)

/-- A state with the invariant in the middle of collecting bits. -/
theorem test_witness_inv_collecting : (unit (bbsRegs 82 25 1 3 2) [.transaction 0x58000000 0#128]).Inv :=
  ⟨⟨by decide +kernel, by decide +kernel, by decide +kernel, by decide +kernel, by decide +kernel, by decide +kernel⟩,
    reservedZero_of_lt _ (by decide +kernel)⟩

/-- The invariant at the greatest length with every bit to come, and in state FULL with the greatest accumulator. -/
theorem test_witness_inv_bounds : (bbsRegs 9 16 29 29 0).Inv ∧ (bbsRegs 9 16 0 29 536870911).Inv :=
  ⟨⟨by decide +kernel, by decide +kernel, by decide +kernel, by decide +kernel, by decide +kernel, by decide +kernel⟩,
    ⟨by decide +kernel, by decide +kernel, by decide +kernel, by decide +kernel, by decide +kernel, by decide +kernel⟩⟩

/-- StepKeepsTheInvariant: the state of test_witness_inv_collecting has a next state. -/
theorem test_witness_step_of_inv :
    nextState (step (unit (bbsRegs 82 25 1 3 2) [.transaction 0x58000000 0#128])) =
      some ((unit zero []).ended (bbsRegs 36 25 0 3 4) 0 0) := by decide +kernel

/-- ReachableStatesHaveTheInvariant: one step from reset. -/
theorem test_witness_reachable :
    Runs 1 { State.resetAt Width.default with todo := [.transaction 0x09600000 11#128] }
      ((unit zero []).ended { zero with bbsP := 11#128 } 0 0) := by
  have h : nextState (step { State.resetAt Width.default with todo := [.transaction 0x09600000 11#128] }) =
      some ((unit zero []).ended { zero with bbsP := 11#128 } 0 0) := by decide +kernel
  exact runs_succ (eq_next h) (runs_zero _)

/-- RegistersChangeOnlyByTheirWriters: a transaction that changes PM_X, and one that changes STATUS by a fault. -/
theorem test_witness_register_change :
    nextState (step (unit { zero with pmX := 1#128 } [.transaction 0x20000000 0#128])) =
      some ((unit zero []).ended { zero with pmX := 16807#128, res := 16807#128 } 0 16807#128) ∧
    ({ zero with pmX := 16807#128, res := 16807#128 } : Regs 128).read .pmX ≠
      ({ zero with pmX := 1#128 } : Regs 128).read .pmX := by decide +kernel

/-- EnginesAreSeparate: two different register files that agree on the BBS group, and a BBS command. -/
theorem test_witness_engines :
    Instr.bbsNext ∈ Engine.bbs.commands ∧
    Engine.bbs.Agree (bbsRegs 9 0 0 0 0) { bbsRegs 9 0 0 0 0 with pmX := 1#128, res := 5#128, status := 3#128 } ∧
    Engine.lcg ≠ Engine.bbs :=
  ⟨by decide, ⟨by decide +kernel, fun _ => by decide +kernel⟩, by decide⟩

/-- EnginesKeepTheirRanges: the inner premises at their bounds, each with `resp` 0. -/
theorem test_witness_ranges :
    ((0 : Int) ≤ sint ({ zero with pmX := 2147483646#128 } : Regs 128).pmX ∧
      sint ({ zero with pmX := 2147483646#128 } : Regs 128).pmX < 2147483647) ∧
    responseCode (lcgRegs 1 1 1 0) 0x40000000 = 0 ∧ responseCode (seeded 1 2 3) 0x50000000 = 0 ∧
    responseCode (bbsRegs 9 16 29 29 0) 0x58000000 = 0 ∧ responseCode (bbsRegs 208 0 0 0 0) 0x60000000 = 0 ∧
    sint (bbsRegs 208 0 0 0 0).bbsX < sint (bbsRegs 208 0 0 0 0).bbsM ∧
    responseCode (bbsRegs 9 16 0 29 536870911) 0x5C000000 = 0 := by decide +kernel

/-- CommandsFromTheResetState: a state with the reset registers, and the ends of the ranges of indices. -/
theorem test_witness_reset_registers :
    (unit zero [.transaction 0x20000000 0#128]).regs = (State.resetAt Width.default).regs ∧
    ((0x11 : Nat) < 0x12 ∧ 0x11 ≠ 0x01 ∧ 0x11 ≠ 0x03) ∧ ((0x00 : Nat) < 0x12) :=
  ⟨rfl, by decide, by decide⟩

/-- RdReturnsTheRegister and WrWritesTheDataWord: an index of each clause, at the ends of the ranges. -/
theorem test_witness_indices :
    (31 : Nat) < 32 ∧ ((0x03 : Nat) = 0x03 ∨ 0x12 ≤ 0x03) ∧ ((0x12 : Nat) = 0x03 ∨ 0x12 ≤ 0x12) ∧
    0x11 ∈ [0x00, 0x01, 0x02, 0x0E, 0x0F, 0x10, 0x11] ∧
    (unit zero [.transaction 0x09A00000 5#128]).todo = .transaction 0x09A00000 5#128 :: [] := by decide

/-- WrittenValueIsReadBackAtOnce: the last RW index. -/
theorem test_witness_read_back :
    0x0D ∈ [0x04, 0x05, 0x06, 0x07, 0x08, 0x09, 0x0A, 0x0B, 0x0C, 0x0D] ∧
    (unit zero [.transaction 0x09A00000 5#128, .transaction 0x05A00000 0#128]).todo =
      .transaction (encode (.wr 0x0D)) 5#128 :: .transaction (encode (.rd 0x0D)) 0#128 :: [] := by decide +kernel

/-- ClrErrClearsOnlyErr: STATUS.ERR 0 while BBS_ARMED is 1. -/
theorem test_witness_err_zero : (bbsRegs 9 16 3 3 0).err = 0 := by decide +kernel

/-- SchrageIsTheWrittenDecomposition: the least and the greatest remainder, with `t < 0` and `t = 0`. -/
theorem test_witness_schrage :
    ((0 : Int) < 127773 ∧ (127773 : Int) = 127773 * 1 + 0 ∧ (0 : Int) < 127773 ∧ (16807 * 0 - 2836 * 1 : Int) < 0) ∧
    ((-1 : Int) = 127773 * (-1) + 127772 ∧ (127772 : Int) < 127773) ∧
    ((0 : Int) = 127773 * 0 + 0 ∧ ¬ (16807 * 0 - 2836 * 0 : Int) < 0) := by decide +kernel

/-- SchrageIsExactUpToItsBound: the last inputs of both ranges. -/
theorem test_witness_schrage_bound :
    ((0 : Int) ≤ 96752654378 ∧ schrage1 96752654378 = 2147466059) ∧
    ((536870910 : Int) < 536870911 ∧ schrage2 536870910 = 536822640) := by decide +kernel

/-- SchrageResultsFitTheRegister: both ends of the range at `W = 64`. -/
theorem test_witness_schrage_fits :
    (-(2 ^ (Width.least.bits - 1)) : Int) ≤ -9223372036854775808 ∧
    (9223372036854775807 : Int) < 2 ^ (Width.least.bits - 1) := by decide +kernel

/-- LcgStepWritesTheExactResidue: the least modulus, and 0. -/
theorem test_witness_lcg_modulus : 0 < sint (lcgRegs 9 4 1 100).lcgM ∧ sint (lcgRegs 9 4 0 100).lcgM ≤ 0 := by
  decide +kernel

/-- BbsInitStoresTheModulusAndSquaresTheSeed: each clause at its boundary, the capacity at `W = 64`. -/
theorem test_witness_bbs_init :
    sint (seeded 7 7 1).bbsP = sint (seeded 7 7 1).bbsQ ∧
    (sint (seeded 0 5 1).bbsP ≠ sint (seeded 0 5 1).bbsQ ∧ sint (seeded 0 5 1).bbsP * sint (seeded 0 5 1).bbsQ ≤ 0) ∧
    (sint (bits 64 2) ≠ sint (bits 64 (2 ^ 62)) ∧
      (2 ^ (Width.least.bits - 1) : Int) ≤ sint (bits 64 2) * sint (bits 64 (2 ^ 62))) ∧
    (0 < sint (bits 64 7) * sint (bits 64 1317624576693539401) ∧
      sint (bits 64 7) * sint (bits 64 1317624576693539401) < 2 ^ (Width.least.bits - 1)) ∧
    0 < sint (seeded 1 2 1).bbsP * sint (seeded 1 2 1).bbsQ := by decide +kernel

/-- BbsDrawDrawsTheLength and BbsNextOutputsOneWholeValue: not configured, armed, and neither. The last is also the
premise of BbsNextIsTheCompositionOfItsParts. -/
theorem test_witness_bbs_draw :
    sint zero.bbsM ≤ 0 ∧ (0 < sint (bbsRegs 9 16 0 0 0).bbsM ∧ (bbsRegs 9 16 0 0 0).armed = true) ∧
    (0 < sint ({ zero with bbsM := 1#128 } : Regs 128).bbsM ∧ ({ zero with bbsM := 1#128 } : Regs 128).armed = false) := by
  decide +kernel

/-- BbsBitSquaresAndShiftsInTheLowBit: IDLE, FULL, and the last bit of a value (with test_witness_inv_collecting). -/
theorem test_witness_bbs_bit :
    (0 < sint (bbsRegs 9 0 0 0 0).bbsM ∧ (bbsRegs 9 0 0 0 0).armed = false) ∧
    (0 < sint (bbsRegs 9 16 0 3 4).bbsM ∧ sint (bbsRegs 9 16 0 3 4).bbsCnt = 0) ∧
    ((bbsRegs 82 25 1 3 2).armed = true ∧ sint (bbsRegs 82 25 1 3 2).bbsCnt ≠ 0) := by decide +kernel

/-- BbsEmitOutputsTheAccumulator: IDLE, COLLECTING and FULL. -/
theorem test_witness_bbs_emit :
    (bbsRegs 9 0 0 0 0).armed = false ∧ sint (bbsRegs 9 16 1 3 2).bbsCnt ≠ 0 ∧
    ((bbsRegs 9 16 0 3 4).armed = true ∧ sint (bbsRegs 9 16 0 3 4).bbsCnt = 0) := by decide +kernel

/-- FirstBitIsTheMostSignificant: 29 bits to come (the invariant is test_witness_inv_bounds), and none. -/
theorem test_witness_bit_order :
    ((bbsRegs 9 16 29 29 0).armed = true ∧ sint (bbsRegs 9 16 29 29 0).bbsCnt = (29 : Nat) ∧
      sint (bbsRegs 9 16 29 29 0).bbsAcc = 0) ∧
    ((bbsRegs 9 16 0 0 0).armed = true ∧ sint (bbsRegs 9 16 0 0 0).bbsCnt = (0 : Nat)) ∧
    (unit zero (List.replicate 2 (.transaction 0x58000000 0#128))).todo =
      List.replicate 2 (.transaction 0x58000000 0#128) ++ [] := by decide +kernel

/-- BbsNextIsTheCompositionOfItsParts: with `BBS_M = 209` and `BBS_X = 9` the drawn length is 3, and the moves stand so.
-/
theorem test_witness_composition :
    observe 0x60000000 0 (bbsRegs 9 0 0 0 0) .bbsLen = some (0, 4, 3) ∧
    (unit zero (.transaction 0x54000000 0#128 :: List.replicate 3 (.transaction 0x58000000 0#128) ++
      .transaction 0x5C000000 0#128 :: [])).todo =
      .transaction 0x54000000 0#128 :: List.replicate 3 (.transaction 0x58000000 0#128) ++
        .transaction 0x5C000000 0#128 :: [] := by decide +kernel

/-- PseudoInstructionsExpandToTheirTransactions: the last register index, and REP of its WR. -/
theorem test_witness_rep_write :
    (31 : Nat) < 32 ∧ assembleLine 64 (.rep 2 (.write 31 (sint 5#64))) =
      some [.transaction 0x0BE00000 5#64, .transaction 0x0BE00000 5#64] := by decide +kernel

/-- The moves of the calls R109 to R111, as the host's own programs make them. -/
theorem test_witness_calls :
    parkMillerMoves 128 1 2 = some (.transaction 0x08800000 1#128 :: List.replicate 2 (.transaction 0x20000000 0#128) ++ []) ∧
    lecuyerMoves 128 1 2 1 = some (.transaction 0x08A00000 1#128 :: .transaction 0x08C00000 2#128 ::
      List.replicate 1 (.transaction 0x30000000 0#128) ++ []) ∧
    lcgMoves 128 1 2 3 4 1 = some (.transaction 0x08E00000 1#128 :: .transaction 0x09000000 2#128 ::
      .transaction 0x09200000 3#128 :: .transaction 0x09400000 4#128 ::
      List.replicate 1 (.transaction 0x40000000 0#128) ++ []) ∧
    lcg 1 2 3 4 1 = some [0] ∧ lcg 1 2 0 4 1 = none := by decide +kernel

/-- The moves of R112's call, the values of V-BBS-1, and the two ways it fails. -/
theorem test_witness_bbs_call :
    bbsMoves 128 11 19 3 2 = some (.transaction 0x09600000 11#128 :: .transaction 0x09800000 19#128 ::
      .transaction 0x09A00000 3#128 :: .transaction 0x50000000 0#128 ::
      List.replicate 2 (.transaction 0x60000000 0#128) ++ []) ∧
    bbs (sint 11#128) (sint 19#128) (sint 3#128) 2 = some [4, 364] ∧
    sint 11#128 * sint 19#128 < 2 ^ (Width.default.bits - 1) ∧ bbs 7 7 3 2 = none ∧ bbs 0 5 3 2 = none := by
  decide +kernel

/-- SavedBbsStreamIsResumed: the stream of V-BBS-1 suspended after its first value. -/
theorem test_witness_resume :
    sint 11#128 ≠ sint 19#128 ∧ 0 < sint 11#128 * sint 19#128 ∧
    sint (bbsRegs 36 0 0 3 0).bbsM = sint 11#128 * sint 19#128 ∧ (bbsRegs 36 0 0 3 0).armed = false ∧
    (unit zero [.transaction 0x09600000 11#128, .transaction 0x09800000 19#128, .transaction 0x50000000 0#128,
      .transaction 0x09A00000 (bbsRegs 36 0 0 3 0).bbsX]).todo =
      .transaction 0x09600000 11#128 :: .transaction 0x09800000 19#128 :: .transaction 0x50000000 0#128 ::
        .transaction 0x09A00000 (bbsRegs 36 0 0 3 0).bbsX :: [] := by decide +kernel

end Sys2Proof.Tests
end

/-! ## Proofs: the numbers of the unit (00_scope.md R9, R10) -/

namespace Sys2Proof.Proofs.Numbers

open Sys2Proof Sys2Proof.Machine Sys2Proof.Config

/-- The universal property of the division of R10; that the quotient is itself one of the `k` is the case
`k = floorDiv x y`. -/
theorem le_floorDiv_iff {k x y : Int} (hy : 0 < y) : k ≤ floorDiv x y ↔ k * y ≤ x := by
  rw [floorDiv_eq hy.le, Int.le_ediv_iff_mul_le hy]

/-- Settles O1: both halves of "greatest" are the two directions of `le_floorDiv_iff`. -/
theorem floorDivisionIsTheGreatestInteger : Obligations.FloorDivisionIsTheGreatestInteger := by
  intro x y hy
  have quotient_fits : floorDiv x y * y ≤ x := (le_floorDiv_iff hy).mp le_rfl
  have quotient_greatest : ∀ k : Int, k * y ≤ x → k ≤ floorDiv x y := fun _ => (le_floorDiv_iff hy).mpr
  exact ⟨quotient_fits, quotient_greatest, rfl, floorMod_nonneg hy, floorMod_lt hy,
    floorDiv_eq hy.le, floorMod_eq hy.le⟩

/-- Settles O2: a legal width has a sign bit, so `bits_W` writes every integer of the signed range as a pattern that
reads back, and what `sint_W` reads is in that range. -/
theorem signedReadingInvertsWriting : Obligations.SignedReadingInvertsWriting := by
  intro w
  constructor
  · intro v hlow hhigh
    exact sint_bits (Width.bits_pos w) hlow hhigh
  · intro b
    exact ⟨le_sint b, sint_lt b, bits_sint b⟩

end Sys2Proof.Proofs.Numbers

/-! ## Proofs: what each command does when it succeeds (40_host_access.md to 44_bbs.md) -/

namespace Sys2Proof.Proofs.Effects

open Sys2Proof Sys2Proof.Machine Sys2Proof.Config

/-! ### One inversion lemma per command: its guards passed, and these are the registers and the `dout` -/

section Inversion
variable {W : Nat} {r : Regs W} {x : Regs W × Word W}

theorem rdEffect_ok {reg : Nat} (h : rdEffect reg r = .ok x) :
    ∃ n, RegName.ofIndex reg = some n ∧ x = (r, r.read n) := by
  unfold rdEffect at h
  split at h
  · cases h
  · next n hn => cases h; exact ⟨n, hn, rfl⟩

theorem wrEffect_ok {reg : Nat} {din : Word W} (h : wrEffect reg din r = .ok x) :
    ∃ n, RegName.ofIndex reg = some n ∧ n.readOnly = false ∧ x = (r.write n din, 0#W) := by
  unfold wrEffect at h
  split at h
  · cases h
  · next n hn =>
    split at h
    · cases h
    · next hro => cases h; exact ⟨n, hn, Bool.eq_false_iff.mpr hro, rfl⟩

theorem pmStepEffect_ok (h : pmStepEffect r = .ok x) :
    ∃ y, y = bits W (schrage1 (sint r.pmX)) ∧ x = ({ r with pmX := y, res := y }, y) := by
  cases h; exact ⟨_, rfl, rfl⟩

theorem lecStepEffect_ok (h : lecStepEffect r = .ok x) :
    ∃ y₁ y₂ z, y₁ = lecNext1 (sint r.lecX1) ∧ y₂ = lecNext2 (sint r.lecX2) ∧ z = bits W (lecCombine y₁ y₂) ∧
      x = ({ r with lecX1 := bits W y₁, lecX2 := bits W y₂, res := z }, z) := by
  cases h; exact ⟨_, _, _, rfl, rfl, rfl, rfl⟩

theorem lcgStepEffect_ok (h : lcgStepEffect r = .ok x) :
    0 < sint r.lcgM ∧ ∃ v, v = bits W (lcgNext (sint r.lcgA) (sint r.lcgC) (sint r.lcgM) (sint r.lcgX)) ∧
      x = ({ r with lcgX := v, res := v }, v) := by
  unfold lcgStepEffect at h
  dsimp only at h
  split at h
  · cases h
  · next hm => cases h; exact ⟨not_le.mp hm, _, rfl, rfl⟩

theorem bbsInitEffect_ok (h : bbsInitEffect r = .ok x) :
    ∃ m, m = sint r.bbsP * sint r.bbsQ ∧ 0 < m ∧ m < 2 ^ (W - 1) ∧
      x = ({ r with
              bbsM := bits W m, bbsX := bits W (bbsSquare m (sint r.bbsX)),
              bbsAcc := 0#W, bbsCnt := 0#W, bbsLen := 0#W }.setArmed false, 0#W) := by
  unfold bbsInitEffect at h
  dsimp only at h
  split at h
  · cases h
  · split at h
    · cases h
    · next hpos =>
      split at h
      · cases h
      · next hcap =>
        cases h
        refine ⟨_, rfl, not_le.mp hpos, ?_, by rw [bits_zero]⟩
        push_cast at hcap
        exact not_le.mp hcap

theorem bbsDrawEffect_ok (h : bbsDrawEffect r = .ok x) :
    0 < sint r.bbsM ∧ r.armed = false ∧ ∃ len, len = bits W (bbsDrawLength (sint r.bbsX)) ∧
      x = ({ r with bbsLen := len, bbsCnt := len, bbsAcc := 0#W }.setArmed true, len) := by
  unfold bbsDrawEffect at h
  dsimp only at h
  split at h
  · cases h
  · next hm =>
    split at h
    · cases h
    · next harmed => cases h; exact ⟨not_le.mp hm, Bool.eq_false_iff.mpr harmed, _, rfl, by rw [bits_zero]⟩

theorem bbsBitEffect_ok (h : bbsBitEffect r = .ok x) :
    0 < sint r.bbsM ∧ r.armed = true ∧ sint r.bbsCnt ≠ 0 ∧
      ∃ y, y = bbsSquare (sint r.bbsM) (sint r.bbsX) ∧
        x = ({ r with
                bbsX := bits W y, bbsAcc := bits W (2 * sint r.bbsAcc + bbsLowBit y),
                bbsCnt := bits W (sint r.bbsCnt - 1) }, bits W (bbsLowBit y)) := by
  unfold bbsBitEffect at h
  dsimp only at h
  split at h
  · cases h
  · next hm =>
    split at h
    · cases h
    · next hseq =>
      obtain ⟨harmed, hcnt⟩ := not_or.mp hseq
      cases h
      exact ⟨not_le.mp hm, Bool.eq_true_of_not_eq_false harmed, hcnt, _, rfl, rfl⟩

theorem bbsEmitEffect_ok (h : bbsEmitEffect r = .ok x) :
    r.armed = true ∧ sint r.bbsCnt = 0 ∧
      x = ({ r with res := r.bbsAcc, bbsAcc := 0#W }.setArmed false, r.bbsAcc) := by
  unfold bbsEmitEffect at h
  dsimp only at h
  split at h
  · cases h
  · next hseq =>
    obtain ⟨harmed, hcnt⟩ := not_or.mp hseq
    cases h
    exact ⟨Bool.eq_true_of_not_eq_false harmed, not_not.mp hcnt, by rw [bits_sint, bits_zero]⟩

theorem bbsNextEffect_ok (h : bbsNextEffect r = .ok x) :
    0 < sint r.bbsM ∧ r.armed = false ∧ ∃ len out, len = bbsDrawLength (sint r.bbsX) ∧
      out = bbsCollect (sint r.bbsM) len.toNat (sint r.bbsX) 0 ∧
      x = ({ r with
              bbsX := bits W out.1, bbsLen := bits W len, bbsCnt := 0#W, bbsAcc := 0#W, res := bits W out.2 },
            bits W out.2) := by
  unfold bbsNextEffect at h
  dsimp only at h
  split at h
  · cases h
  · next hm =>
    split at h
    · cases h
    · next harmed =>
      cases h; exact ⟨not_le.mp hm, Bool.eq_false_iff.mpr harmed, _, _, rfl, rfl, by rw [bits_zero]⟩

end Inversion

/-! ### What a transaction can do -/

section Outcome
variable {s : State}

theorem exec_ok {i : Instr} {x : Regs s.W × Word s.W} (h : effectOf i s.din s.regs = .ok x) :
    exec i s = .next (s.ended x.1 0 x.2) := by
  rw [exec_eq, h, conclude_ok]

theorem exec_error {i : Instr} {f : Fault} (h : effectOf i s.din s.regs = .error f) :
    exec i s = .next (s.ended (s.regs.recordFault f.code) f.code 0) := by
  rw [exec_eq, h, conclude_error, faulted_eq]

/-- Whatever every success of a command establishes holds after it whenever its response is 0. -/
theorem exec_of_success {i : Instr} {P : Regs s.W → Prop} (h : ∀ x, effectOf i s.din s.regs = .ok x → P x.1) :
    ∃ r resp dout, exec i s = .next (s.ended r resp dout) ∧ (resp = 0 → P r) := by
  cases he : effectOf i s.din s.regs with
  | error f => exact ⟨_, _, _, exec_error he, fun h0 => absurd h0 (Fault.code_range f).1⟩
  | ok x => exact ⟨_, _, _, exec_ok he, fun _ => h x he⟩

theorem wordEffect_of_decode {W : Nat} {cmd : CmdWord} {i : Instr} (hd : decode cmd = .ok i) (d : Word W)
    (r : Regs W) : wordEffect cmd d r = effectOf i d r := by
  rw [wordEffect, hd]

/-- Only a legal word succeeds, and then with its command's effect (R64). -/
theorem wordEffect_ok {W : Nat} {cmd : CmdWord} {d : Word W} {r : Regs W} {x : Regs W × Word W}
    (h : wordEffect cmd d r = .ok x) : ∃ i, decode cmd = .ok i ∧ effectOf i d r = .ok x := by
  cases hd : decode cmd with
  | error e => rw [wordEffect, hd] at h; cases h
  | ok i => exact ⟨i, rfl, by rwa [wordEffect_of_decode hd] at h⟩

/-- A transaction faults and only records the code, or it is a legal command's success (R48, R64, R126). -/
theorem transaction_cases {cmd : CmdWord} {d : Word s.W} {rest : List (HostMove s.W)}
    (h : s.todo = .transaction cmd d :: rest) :
    (∃ f, wordEffect cmd d s.regs = .error f ∧
      step s = .next (s.ended (s.regs.recordFault f.code) f.code 0)) ∨
    (∃ i x, decode cmd = .ok i ∧ effectOf i d s.regs = .ok x ∧ step s = .next (s.ended x.1 0 x.2)) := by
  rw [step_transaction s d h]
  cases he : wordEffect cmd d s.regs with
  | error f => exact .inl ⟨f, rfl, rfl⟩
  | ok x =>
    obtain ⟨i, hd, hi⟩ := wordEffect_ok he
    exact .inr ⟨i, x, hd, hi, rfl⟩

/-- What reset, every recorded fault and every successful command keep, every step keeps. -/
theorem step_keeps {P : ∀ w : Width, Regs w.bits → Prop}
    (hreset : ∀ w, P w (Regs.reset w.bits))
    (hfault : ∀ w r (f : Fault), P w r → P w (r.recordFault f.code))
    (hcommand : ∀ w r i (d : Word w.bits) x, P w r → effectOf i d r = .ok x → P w x.1)
    {s t : State} (hs : P s.width s.regs) (hstep : step s = .next t) : P t.width t.regs := by
  cases htodo : s.todo with
  | nil => rw [step_nil s htodo] at hstep; cases hstep; exact hs
  | cons move rest =>
    cases move with
    | reset => rw [step_reset s htodo] at hstep; cases hstep; exact hreset s.width
    | transaction cmd d =>
      obtain ⟨f, -, h⟩ | ⟨i, x, -, hx, h⟩ := transaction_cases htodo <;> rw [h] at hstep <;> cases hstep
      · exact hfault _ _ f hs
      · exact hcommand _ _ i d x hs hx

/-- A run of `k + 1` steps is one step and a run of `k`. -/
theorem runs_succ_inv {k : Nat} {u : State} (h : Runs (k + 1) s u) : ∃ t, step s = .next t ∧ Runs k t u := by
  unfold Runs at h
  simp only [Host.Core.run] at h
  split at h
  · next t ht => exact ⟨t, ht, h⟩
  · cases h
  · cases h

/-- What every step keeps, every run keeps. -/
theorem runs_keeps {P : State → Prop} (hstep : ∀ s t, P s → step s = .next t → P t) {k : Nat} {t : State}
    (hs : P s) (hrun : Runs k s t) : P t := by
  induction k generalizing s with
  | zero => cases hrun; exact hs
  | succ k ih =>
    obtain ⟨u, hu, hrest⟩ := runs_succ_inv hrun
    exact ih (hstep s u hs hu) hrest

end Outcome

/-! ### Which registers a successful command leaves alone (10_state.md R19, R41) -/

section Frame
variable {W : Nat} {r : Regs W} {x : Regs W × Word W}

theorem read_write_of_ne {m n : RegName} (hne : n ≠ m) (v : Word W) : (r.write m v).read n = r.read n := by
  cases m <;> cases n <;> simp_all [Regs.read, Regs.write]

theorem read_recordFault_of_ne {n : RegName} (hne : n ≠ .status) (c : RespCode) :
    (r.recordFault c).read n = r.read n := by
  cases n <;> simp_all [Regs.read]

/-- WR of a RW register stands in that register's "written by" column. -/
theorem wr_mem_writtenBy {reg : Nat} {n : RegName} (hn : RegName.ofIndex reg = some n) (hrw : n.readOnly = false) :
    Instr.wr reg ∈ writtenBy n := by
  unfold RegName.ofIndex at hn
  split at hn <;> cases hn <;> simp_all [writtenBy, RegName.readOnly]

@[simp] theorem write_status (m : RegName) (v : Word W) : (r.write m v).status = r.status := by
  cases m <;> rfl

/-- A successful command writes no register outside its "written by" columns. -/
theorem effectOf_read_frame {i : Instr} {d : Word W} (h : effectOf i d r = .ok x) {n : RegName}
    (hn : i ∉ writtenBy n) : x.1.read n = r.read n := by
  cases i with
  | nop => cases h; rfl
  | rd reg => obtain ⟨_, -, rfl⟩ := rdEffect_ok h; rfl
  | wr reg =>
    obtain ⟨m, hm, hrw, rfl⟩ := wrEffect_ok h
    refine read_write_of_ne (fun hnm => hn ?_) d
    rw [hnm]
    exact wr_mem_writtenBy hm hrw
  | clrErr => cases h; cases n <;> simp_all [writtenBy, Regs.read, clearErr_eq]
  | pmStep => obtain ⟨_, -, rfl⟩ := pmStepEffect_ok h; cases n <;> simp_all [writtenBy, Regs.read]
  | lecStep => obtain ⟨_, _, _, -, -, -, rfl⟩ := lecStepEffect_ok h; cases n <;> simp_all [writtenBy, Regs.read]
  | lcgStep => obtain ⟨-, _, -, rfl⟩ := lcgStepEffect_ok h; cases n <;> simp_all [writtenBy, Regs.read]
  | bbsInit => obtain ⟨_, -, -, -, rfl⟩ := bbsInitEffect_ok h; cases n <;> simp_all [writtenBy, Regs.read]
  | bbsDraw => obtain ⟨-, -, _, -, rfl⟩ := bbsDrawEffect_ok h; cases n <;> simp_all [writtenBy, Regs.read]
  | bbsBit => obtain ⟨-, -, -, _, -, rfl⟩ := bbsBitEffect_ok h; cases n <;> simp_all [writtenBy, Regs.read]
  | bbsEmit => obtain ⟨-, -, rfl⟩ := bbsEmitEffect_ok h; cases n <;> simp_all [writtenBy, Regs.read]
  | bbsNext => obtain ⟨-, -, _, _, -, -, rfl⟩ := bbsNextEffect_ok h; cases n <;> simp_all [writtenBy, Regs.read]

end Frame
end Sys2Proof.Proofs.Effects

/-! ## Proofs: STATUS, ID and RES (10_state.md R21 to R25) -/

namespace Sys2Proof.Proofs.Status

open Sys2Proof Sys2Proof.Machine Sys2Proof.Config Sys2Proof.Proofs.Effects

section Fields
variable {W : Nat} {r q : Regs W} {x : Regs W × Word W}

theorem err_congr (h : q.status = r.status) : q.err = r.err := by rw [Regs.err, h, Regs.err]

theorem armed_congr (h : q.status = r.status) : q.armed = r.armed := by rw [Regs.armed, h, Regs.armed]

@[simp] theorem err_reset : (Regs.reset W).err = 0 := by simp [Regs.err, Regs.reset]

@[simp] theorem armed_reset : (Regs.reset W).armed = false := by simp [Regs.armed, Regs.reset]

/-- What a successful command does to STATUS (R22, R23): CLR_ERR clears ERR, BBS_DRAW arms, BBS_INIT and BBS_EMIT
disarm, and every other command leaves it. -/
theorem effectOf_status {i : Instr} {d : Word W} (h : effectOf i d r = .ok x) :
    (i = .clrErr ∧ x.1.status = (r.setErr 0).status) ∨
    (i = .bbsDraw ∧ x.1.status = (r.setArmed true).status) ∨
    ((i = .bbsInit ∨ i = .bbsEmit) ∧ x.1.status = (r.setArmed false).status) ∨
    (i ∉ writtenBy .status ∧ x.1.status = r.status) := by
  by_cases hi : i ∈ writtenBy .status
  · have hwriters : i = .clrErr ∨ i = .bbsInit ∨ i = .bbsDraw ∨ i = .bbsEmit := by simpa [writtenBy] using hi
    obtain rfl | rfl | rfl | rfl := hwriters
    · cases h; exact .inl ⟨rfl, rfl⟩
    · obtain ⟨_, -, -, -, rfl⟩ := bbsInitEffect_ok h; exact .inr (.inr (.inl ⟨.inl rfl, rfl⟩))
    · obtain ⟨-, -, _, -, rfl⟩ := bbsDrawEffect_ok h; exact .inr (.inl ⟨rfl, rfl⟩)
    · obtain ⟨-, -, rfl⟩ := bbsEmitEffect_ok h; exact .inr (.inr (.inl ⟨.inr rfl, rfl⟩))
  · exact .inr (.inr (.inr ⟨hi, effectOf_read_frame h hi⟩))

/-- A command that succeeds leaves ERR alone, unless it is CLR_ERR (R22). -/
theorem effectOf_err {i : Instr} {d : Word W} (h : effectOf i d r = .ok x) (hi : i ≠ .clrErr) :
    x.1.err = r.err := by
  obtain ⟨rfl, -⟩ | ⟨-, hst⟩ | ⟨-, hst⟩ | ⟨-, hst⟩ := effectOf_status h
  · exact absurd rfl hi
  · rw [err_congr hst, err_setArmed]
  · rw [err_congr hst, err_setArmed]
  · exact err_congr hst

theorem clrErr_err (hW : 4 ≤ W) {d : Word W} (h : effectOf .clrErr d r = .ok x) : x.1.err = 0 := by
  cases h; exact err_setErr r hW 0

/-- A command that succeeds leaves BBS_ARMED alone, unless it is BBS_DRAW, BBS_EMIT or BBS_INIT (R23). -/
theorem effectOf_armed {i : Instr} {d : Word W} (h : effectOf i d r = .ok x) (hdraw : i ≠ .bbsDraw)
    (hemit : i ≠ .bbsEmit) (hinit : i ≠ .bbsInit) : x.1.armed = r.armed := by
  obtain ⟨-, hst⟩ | ⟨rfl, -⟩ | ⟨rfl | rfl, -⟩ | ⟨-, hst⟩ := effectOf_status h
  · rw [armed_congr hst, armed_setErr]
  · exact absurd rfl hdraw
  · exact absurd rfl hinit
  · exact absurd rfl hemit
  · exact armed_congr hst

theorem bbsDraw_armed (hW : 4 < W) {d : Word W} (h : effectOf .bbsDraw d r = .ok x) : x.1.armed = true := by
  obtain ⟨-, -, _, -, rfl⟩ := bbsDrawEffect_ok h
  exact armed_setArmed _ hW true

theorem bbsEmit_armed (hW : 4 < W) {d : Word W} (h : effectOf .bbsEmit d r = .ok x) : x.1.armed = false := by
  obtain ⟨-, -, rfl⟩ := bbsEmitEffect_ok h
  exact armed_setArmed _ hW false

theorem bbsInit_armed (hW : 4 < W) {d : Word W} (h : effectOf .bbsInit d r = .ok x) : x.1.armed = false := by
  obtain ⟨_, -, -, -, rfl⟩ := bbsInitEffect_ok h
  exact armed_setArmed _ hW false

/-- BBS_NEXT finds the iterator IDLE and leaves it so (R104). -/
theorem bbsNext_armed {d : Word W} (h : effectOf .bbsNext d r = .ok x) : r.armed = false ∧ x.1.armed = false := by
  obtain ⟨-, harmed, _⟩ := bbsNextEffect_ok h
  exact ⟨harmed, by rw [effectOf_armed h (by decide) (by decide) (by decide), harmed]⟩

/-- The legal error codes are kept by every recorded fault (R22, R122). -/
theorem recordFault_err_le (hW : 4 ≤ W) (h : r.err.toNat ≤ 9) (f : Fault) :
    (r.recordFault f.code).err.toNat ≤ 9 := by
  rw [err_recordFault r hW]
  split
  · exact (Fault.code_range f).2
  · exact h

theorem effectOf_err_le (hW : 4 ≤ W) (hr : r.err.toNat ≤ 9) {i : Instr} {d : Word W}
    (h : effectOf i d r = .ok x) : x.1.err.toNat ≤ 9 := by
  by_cases hi : i = .clrErr
  · subst hi; rw [clrErr_err hW h]; decide
  · rwa [effectOf_err h hi]

/-- A step command's output value is what it puts in RES (R25). -/
theorem effectOf_output {i : Instr} {d : Word W} (h : effectOf i d r = .ok x) (hi : i ∈ writtenBy .res) :
    x.1.res = x.2 := by
  have hwriters : i = .pmStep ∨ i = .lecStep ∨ i = .lcgStep ∨ i = .bbsEmit ∨ i = .bbsNext := by
    simpa [writtenBy] using hi
  obtain rfl | rfl | rfl | rfl | rfl := hwriters
  · obtain ⟨_, -, rfl⟩ := pmStepEffect_ok h; rfl
  · obtain ⟨_, _, _, -, -, -, rfl⟩ := lecStepEffect_ok h; rfl
  · obtain ⟨-, _, -, rfl⟩ := lcgStepEffect_ok h; rfl
  · obtain ⟨-, -, rfl⟩ := bbsEmitEffect_ok h; rfl
  · obtain ⟨-, -, _, _, -, -, rfl⟩ := bbsNextEffect_ok h; rfl

/-! ### The patterns of STATUS and ID -/

theorem err_toNat (r : Regs W) : r.err.toNat = r.status.toNat % 16 := by
  simp [Regs.err, BitVec.extractLsb'_toNat]

theorem armed_eq_decide (r : Regs W) : r.armed = decide (r.status.toNat / 16 % 2 = 1) := by
  rw [Regs.armed, BitVec.getLsbD, Nat.testBit_eq_decide_div_mod_eq]

theorem status_lt_of_reservedZero (h : r.ReservedZero) : r.status.toNat < 32 :=
  Nat.lt_pow_two_of_testBit (n := 5) _ fun i hi => h i hi

/-- The fields of STATUS are its whole value where the reserved bits are 0 (R21). -/
theorem uint_status (h : r.ReservedZero) :
    uint r.status = r.err.toNat + 16 * (if r.armed then 1 else 0) := by
  have hlt := status_lt_of_reservedZero h
  rw [uint, err_toNat, armed_eq_decide]
  simp only [decide_eq_true_eq]
  split <;> omega

end Fields

theorem idWord_toNat (w : Width) : (idWord w.bits).toNat = 65536 + w.bits := by
  have hle := w.le_65535
  have hor : (1 <<< 16) ||| w.bits = 65536 + w.bits := (Nat.two_pow_add_eq_or_of_lt (i := 16) (by omega) 1).symm
  have hpow : 2 ^ 64 ≤ 2 ^ w.bits := Nat.pow_le_pow_right (by decide) w.ge_64
  rw [idWord, BitVec.toNat_ofNat, hor, Nat.mod_eq_of_lt (by omega)]

/-- WR of a read-only register faults READ_ONLY (R78). -/
theorem exec_wr_readOnly (s : State) {reg : Nat} {n : RegName} (hn : RegName.ofIndex reg = some n)
    (hro : n.readOnly = true) : exec (.wr reg) s = .next (s.faulted 3) := by
  have heffect : effectOf (.wr reg) s.din s.regs = .error .readOnly := by simp [effectOf, wrEffect, hn, hro]
  have hcode : Fault.readOnly.code = 3 := rfl
  rw [exec_error heffect, ← faulted_eq, hcode]

theorem width_gt_four (w : Width) : 4 < w.bits := by have := w.ge_64; omega

/-- Settles O11: a fault only records its code, a success is framed by `effectOf_err`, and the legal codes are an
invariant of the step. -/
theorem errKeepsTheFirstFault : Obligations.ErrKeepsTheFirstFault := by
  refine ⟨fun s cmd d rest htodo => ?_, fun s t rest htodo hstep => ?_, fun w => err_reset, fun s t hs hstep => ?_⟩
  · have hW : 4 ≤ s.W := (width_gt_four s.width).le
    obtain ⟨f, hf, h⟩ | ⟨i, x, hd, hx, h⟩ := transaction_cases htodo
    · have hne : f.code ≠ 0 := (Fault.code_range f).1
      refine ⟨_, _, _, h, fun _ => err_recordFault _ hW _, fun h0 => absurd h0 hne, fun hclr => ?_⟩
      rw [wordEffect_of_decode hclr] at hf
      cases hf
    · refine ⟨_, _, _, h, fun h0 => absurd rfl h0, fun _ hclr => effectOf_err hx ?_, fun hclr => ⟨rfl, ?_⟩⟩
      · rintro rfl; exact hclr hd
      · cases hd.symm.trans hclr; exact clrErr_err hW hx
  · rw [step_reset s htodo] at hstep
    cases hstep
    exact err_reset
  · exact step_keeps (P := fun _ r => r.err.toNat ≤ 9) (fun w => by simp)
      (fun w r f hr => recordFault_err_le (width_gt_four w).le hr f)
      (fun w r i d x hr hx => effectOf_err_le (width_gt_four w).le hr hx) hs hstep

/-- Settles O12: the four commands by their own lemmas, everything else by `effectOf_armed`. -/
theorem armedChangesOnlyAtDrawEmitInitAndReset : Obligations.ArmedChangesOnlyAtDrawEmitInitAndReset := by
  refine ⟨fun s cmd d rest htodo => ?_, fun s t rest htodo hstep => ?_, fun w => armed_reset⟩
  · have hW : 4 < s.W := width_gt_four s.width
    obtain ⟨f, -, h⟩ | ⟨i, x, hd, hx, h⟩ := transaction_cases htodo
    · have hne : f.code ≠ 0 := (Fault.code_range f).1
      exact ⟨_, _, _, h, fun h0 => absurd h0 hne, fun h0 => absurd h0 hne, fun h0 => absurd h0 hne,
        fun h0 => absurd h0 hne, fun _ => armed_recordFault _ _⟩
    · refine ⟨_, _, _, h, fun _ hi => ?_, fun _ hi => ?_, fun _ hi => ?_, fun _ hi => ?_, fun hother => ?_⟩
      · cases hd.symm.trans hi; exact bbsDraw_armed hW hx
      · cases hd.symm.trans hi; exact bbsEmit_armed hW hx
      · cases hd.symm.trans hi; exact bbsInit_armed hW hx
      · cases hd.symm.trans hi; exact bbsNext_armed hx
      · obtain ⟨hdraw, hemit, hinit⟩ := hother.resolve_left fun h0 => h0 rfl
        rw [hd] at hdraw hemit hinit
        exact effectOf_armed hx (mt (congrArg _) hdraw) (mt (congrArg _) hemit) (mt (congrArg _) hinit)
  · rw [step_reset s htodo] at hstep
    cases hstep
    exact armed_reset

/-- Settles O16: RD STATUS returns the register as it stands, whose value is `uint_status`. -/
theorem statusReadsErrAndArmed : Obligations.StatusReadsErrAndArmed := by
  intro s
  have hrd : effectOf (.rd 0x00) s.din s.regs = .ok (s.regs, s.regs.status) := rfl
  exact ⟨fun hz => ⟨_, exec_ok hrd, uint_status hz⟩, exec_wr_readOnly s rfl rfl⟩

/-- Settles O17: ID is `65536 + W`, and `W` takes at most 16 bits. -/
theorem idReadsVersionAndWidth : Obligations.IdReadsVersionAndWidth := by
  intro s
  have hrd : effectOf (.rd 0x01) s.din s.regs = .ok (s.regs, idWord s.W) := rfl
  have hid : (idWord s.W).toNat = 65536 + s.W := idWord_toNat s.width
  have hle : s.W ≤ 65535 := s.width.le_65535
  refine ⟨⟨_, exec_ok hrd, hid, ?_, ?_, fun k hk => ?_⟩, exec_wr_readOnly s rfl rfl⟩
  · rw [BitVec.extractLsb'_toNat, hid, Nat.shiftRight_zero]; omega
  · rw [BitVec.extractLsb'_toNat, hid, Nat.shiftRight_eq_div_pow]; omega
  · have hpow : 2 ^ 24 ≤ 2 ^ k := Nat.pow_le_pow_right (by decide) hk
    rw [BitVec.getLsbD, hid]
    exact Nat.testBit_lt_two_pow (by omega)

/-- Settles O21: a fault records only in STATUS, and a success keeps to `effectOf_read_frame`. -/
theorem registersChangeOnlyByTheirWriters : Obligations.RegistersChangeOnlyByTheirWriters := by
  intro s cmd d rest htodo
  obtain ⟨f, -, h⟩ | ⟨i, x, hd, hx, h⟩ := transaction_cases htodo
  · refine ⟨_, _, _, h, fun n hn => .inl ⟨(Fault.code_range f).1, ?_⟩⟩
    by_contra hne
    exact hn (read_recordFault_of_ne hne _)
  · refine ⟨_, _, _, h, fun n hn => .inr ⟨rfl, i, ?_, hd⟩⟩
    by_contra hnot
    exact hn (effectOf_read_frame hx hnot)

/-- Settles O22: the five commands of RES's "written by" column by `effectOf_output`, the others by the frame. -/
theorem resHoldsTheLastOutput : Obligations.ResHoldsTheLastOutput := by
  refine ⟨fun s cmd d rest htodo => ?_, fun s => ?_⟩
  · obtain ⟨f, -, h⟩ | ⟨i, x, hd, hx, h⟩ := transaction_cases htodo
    · exact ⟨_, _, _, h, fun h0 => absurd h0 (Fault.code_range f).1, fun _ => recordFault_res _ _⟩
    · refine ⟨_, _, _, h, fun _ hwriter => ?_, fun hother => ?_⟩
      · obtain ⟨j, hj, hdj⟩ := hwriter
        cases hd.symm.trans hdj
        exact effectOf_output hx hj
      · have hnot := hother.resolve_left fun h0 => h0 rfl
        exact effectOf_read_frame hx (n := .res) fun hi => hnot ⟨i, hi, hd⟩
  · exact exec_wr_readOnly s rfl rfl

end Sys2Proof.Proofs.Status

/-! ## Proofs: the invariant of the BBS iterator and of STATUS (10_state.md R38, R21) -/

namespace Sys2Proof.Proofs.Invariant

open Sys2Proof Sys2Proof.Machine Sys2Proof.Config Sys2Proof.Proofs.Effects Sys2Proof.Proofs.Status

/-! ### The six clauses -/

section Clauses
variable {W : Nat} {r q : Regs W}

/-- The six clauses are about BBS_CNT, BBS_LEN, BBS_ACC, BBS_M and STATUS only. -/
theorem inv_congr (h : r.Inv) (hcnt : q.bbsCnt = r.bbsCnt) (hlen : q.bbsLen = r.bbsLen) (hacc : q.bbsAcc = r.bbsAcc)
    (hm : q.bbsM = r.bbsM) (harmed : q.armed = r.armed) (herr : q.err.toNat ≤ 9) : q.Inv where
  counts := by rw [hcnt, hlen]; exact h.counts
  accumulator := by rw [hcnt, hlen, hacc]; exact h.accumulator
  idle := by rw [hcnt, hacc, harmed]; exact h.idle
  configured := by rw [hm, harmed]; exact h.configured
  modulus := by rw [hm]; exact h.modulus
  errCode := herr

/-- With a clear accumulator clause 2 holds whatever the counts are, and clause 3 asks only for a count of 0. -/
theorem inv_of_acc_zero (hacc : sint r.bbsAcc = 0)
    (hcounts : 0 ≤ sint r.bbsCnt ∧ sint r.bbsCnt ≤ sint r.bbsLen ∧ sint r.bbsLen ≤ 29)
    (hidle : r.armed = false → sint r.bbsCnt = 0) (hconfigured : r.armed = true → 0 < sint r.bbsM)
    (hmodulus : sint r.bbsM = 0 ∨ (1 ≤ sint r.bbsM ∧ sint r.bbsM < 2 ^ (W - 1)))
    (herr : r.err.toNat ≤ 9) : r.Inv where
  counts := hcounts
  accumulator := by rw [hacc]; exact ⟨le_rfl, by positivity⟩
  idle := fun harmed => ⟨hidle harmed, hacc⟩
  configured := hconfigured
  modulus := hmodulus
  errCode := herr

theorem reset_inv : (Regs.reset W).Inv :=
  inv_of_acc_zero (sint_zero W) (by simp [Regs.reset]) (fun _ => sint_zero W)
    (fun harmed => by simp at harmed) (.inl (sint_zero W)) (by simp)

theorem recordFault_inv (hW : 4 ≤ W) (h : r.Inv) (f : Fault) : (r.recordFault f.code).Inv :=
  inv_congr h (by simp) (by simp) (by simp) (by simp) (by simp) (recordFault_err_le hW h.errCode f)

/-- The place-value bound of BBS_ACC grows with each bit collected (R35, R100). -/
theorem accumulator_step {acc b : Int} {n : Nat} (h₀ : 0 ≤ acc) (h₁ : acc < 2 ^ n) (hb : b = 0 ∨ b = 1) :
    0 ≤ 2 * acc + b ∧ 2 * acc + b < 2 ^ (n + 1) := by
  rw [pow_succ]
  omega

/-- A value of at most 29 bits is a small integer (R35). -/
theorem two_pow_le_of_le_29 {n : Nat} (h : n ≤ 29) : (2 : Int) ^ n ≤ 2 ^ 29 :=
  pow_le_pow_right₀ (by norm_num) h

/-- BBS_ACC is below `2^29` (R35, R44). -/
theorem acc_range (h : r.Inv) : 0 ≤ sint r.bbsAcc ∧ sint r.bbsAcc < 2 ^ 29 := by
  obtain ⟨hc₀, hcl, hl⟩ := h.counts
  obtain ⟨ha₀, ha⟩ := h.accumulator
  exact ⟨ha₀, ha.trans_le (two_pow_le_of_le_29 (by omega))⟩

end Clauses

/-! ### The commands that write what the clauses speak of -/

section Commands
variable {w : Width} {r : Regs w.bits} {d : Word w.bits} {x : Regs w.bits × Word w.bits}

theorem mem_bbs_commands {i : Instr} :
    i ∈ Engine.bbs.commands ↔ i = .bbsInit ∨ i = .bbsDraw ∨ i = .bbsBit ∨ i = .bbsEmit ∨ i = .bbsNext := by
  simp [Engine.commands]

theorem sint_bits_of_nonneg {v : Int} (h₀ : 0 ≤ v) (h : v < 2 ^ (w.bits - 1)) : sint (bits w.bits v) = v :=
  sint_bits (Width.bits_pos w) (by have := Width.half_ge w; omega) h

theorem sint_bits_drawLength (w : Width) (x : Int) : sint (bits w.bits (bbsDrawLength x)) = bbsDrawLength x := by
  obtain ⟨hlen₀, hlen⟩ := bbsDrawLength_range x
  exact sint_bits_small w (by omega) (by omega)

theorem bbsInit_inv (hr : r.Inv) (h : effectOf .bbsInit d r = .ok x) : x.1.Inv := by
  have harmed := bbsInit_armed (width_gt_four w) h
  have herr := effectOf_err h (by decide)
  obtain ⟨m, -, hpos, hcap, rfl⟩ := bbsInitEffect_ok h
  have hm : sint (bits w.bits m) = m := sint_bits_of_nonneg hpos.le hcap
  refine inv_of_acc_zero ?_ ?_ (fun _ => ?_) (fun hset => ?_) (.inr ?_) ?_
  · simp
  · simp
  · simp
  · rw [harmed] at hset; cases hset
  · simp only [setArmed_bbsM, hm]; omega
  · rw [herr]; exact hr.errCode

theorem bbsDraw_inv (hr : r.Inv) (h : effectOf .bbsDraw d r = .ok x) : x.1.Inv := by
  have harmed := bbsDraw_armed (width_gt_four w) h
  have herr := effectOf_err h (by decide)
  obtain ⟨hpos, -, len, rfl, rfl⟩ := bbsDrawEffect_ok h
  obtain ⟨hlen₀, hlen⟩ := bbsDrawLength_range (sint r.bbsX)
  refine inv_of_acc_zero ?_ ?_ (fun hclear => ?_) (fun _ => hpos) hr.modulus ?_
  · simp
  · simp only [setArmed_bbsCnt, setArmed_bbsLen, sint_bits_drawLength]; omega
  · rw [harmed] at hclear; cases hclear
  · rw [herr]; exact hr.errCode

theorem bbsBit_inv (hr : r.Inv) (h : effectOf .bbsBit d r = .ok x) : x.1.Inv := by
  have harmed' := effectOf_armed h (by decide) (by decide) (by decide)
  have herr := effectOf_err h (by decide)
  obtain ⟨hpos, harmed, hne, y, -, rfl⟩ := bbsBitEffect_ok h
  obtain ⟨hc₀, hcl, hl⟩ := hr.counts
  obtain ⟨ha₀, ha⟩ := hr.accumulator
  have hexp : (sint r.bbsLen - (sint r.bbsCnt - 1)).toNat = (sint r.bbsLen - sint r.bbsCnt).toNat + 1 := by omega
  have hacc := accumulator_step ha₀ ha (bbsLowBit_cases y)
  rw [← hexp] at hacc
  have hsmall := two_pow_le_of_le_29 (n := (sint r.bbsLen - (sint r.bbsCnt - 1)).toNat) (by omega)
  have hcntBits : sint (bits w.bits (sint r.bbsCnt - 1)) = sint r.bbsCnt - 1 :=
    sint_bits_small w (by omega) (by omega)
  have haccBits : sint (bits w.bits (2 * sint r.bbsAcc + bbsLowBit y)) = 2 * sint r.bbsAcc + bbsLowBit y :=
    sint_bits_small w (by omega) (by omega)
  exact {
    counts := by dsimp only; rw [hcntBits]; omega
    accumulator := by rw [hcntBits, haccBits]; exact hacc
    idle := fun hclear => by rw [harmed', harmed] at hclear; cases hclear
    configured := fun _ => hpos
    modulus := hr.modulus
    errCode := by rw [herr]; exact hr.errCode }

theorem bbsEmit_inv (hr : r.Inv) (h : effectOf .bbsEmit d r = .ok x) : x.1.Inv := by
  have harmed := bbsEmit_armed (width_gt_four w) h
  have herr := effectOf_err h (by decide)
  obtain ⟨-, hcnt, rfl⟩ := bbsEmitEffect_ok h
  refine inv_of_acc_zero ?_ hr.counts (fun _ => hcnt) (fun hset => ?_) hr.modulus ?_
  · simp
  · rw [harmed] at hset; cases hset
  · rw [herr]; exact hr.errCode

theorem bbsNext_inv (hr : r.Inv) (h : effectOf .bbsNext d r = .ok x) : x.1.Inv := by
  have herr := effectOf_err h (by decide)
  obtain ⟨hpos, -, len, out, rfl, -, rfl⟩ := bbsNextEffect_ok h
  obtain ⟨hlen₀, hlen⟩ := bbsDrawLength_range (sint r.bbsX)
  refine inv_of_acc_zero ?_ ?_ (fun _ => ?_) (fun _ => hpos) hr.modulus ?_
  · simp
  · simp only [sint_bits_drawLength, sint_zero]; omega
  · simp
  · rw [herr]; exact hr.errCode

/-- Outside the BBS iterator nothing writes a register of the six clauses but ERR. -/
theorem inv_of_not_iterator {i : Instr} (hi : i ∉ Engine.bbs.commands) (hr : r.Inv) (h : effectOf i d r = .ok x) :
    x.1.Inv := by
  obtain ⟨hinit, hdraw, hbit, hemit, hnext⟩ :
      i ≠ .bbsInit ∧ i ≠ .bbsDraw ∧ i ≠ .bbsBit ∧ i ≠ .bbsEmit ∧ i ≠ .bbsNext := by
    simpa [mem_bbs_commands] using hi
  refine inv_congr hr ?_ ?_ ?_ ?_ (effectOf_armed h hdraw hemit hinit)
    (effectOf_err_le (width_gt_four w).le hr.errCode h)
  · exact effectOf_read_frame h (n := .bbsCnt) (by simp [writtenBy, *])
  · exact effectOf_read_frame h (n := .bbsLen) (by simp [writtenBy, *])
  · exact effectOf_read_frame h (n := .bbsAcc) (by simp [writtenBy, *])
  · exact effectOf_read_frame h (n := .bbsM) (by simp [writtenBy, *])

/-- Every successful command keeps the six clauses. -/
theorem effectOf_inv {i : Instr} (hr : r.Inv) (h : effectOf i d r = .ok x) : x.1.Inv := by
  by_cases hi : i ∈ Engine.bbs.commands
  · obtain rfl | rfl | rfl | rfl | rfl := mem_bbs_commands.mp hi
    · exact bbsInit_inv hr h
    · exact bbsDraw_inv hr h
    · exact bbsBit_inv hr h
    · exact bbsEmit_inv hr h
    · exact bbsNext_inv hr h
  · exact inv_of_not_iterator hi hr h

end Commands

/-! ### The reserved bits of STATUS -/

section Reserved
variable {W : Nat} {r q : Regs W} {x : Regs W × Word W}

theorem reservedZero_congr (h : q.status = r.status) (hr : r.ReservedZero) : q.ReservedZero := by
  intro k hk
  rw [h]
  exact hr k hk

theorem reset_reservedZero : (Regs.reset W).ReservedZero := fun _ _ => BitVec.getLsbD_zero

theorem setErr_reservedZero (c : RespCode) (hr : r.ReservedZero) : (r.setErr c).ReservedZero := by
  intro k hk
  rw [setErr_getLsbD, if_neg (by omega)]
  exact hr k hk

theorem setArmed_reservedZero (b : Bool) (hr : r.ReservedZero) : (r.setArmed b).ReservedZero := by
  intro k hk
  rw [setArmed_getLsbD, if_neg (by omega)]
  exact hr k hk

theorem recordFault_reservedZero (c : RespCode) (hr : r.ReservedZero) : (r.recordFault c).ReservedZero := by
  intro k hk
  rw [recordFault_getLsbD r c (by omega)]
  exact hr k hk

theorem effectOf_reservedZero {i : Instr} {d : Word W} (hr : r.ReservedZero) (h : effectOf i d r = .ok x) :
    x.1.ReservedZero := by
  obtain ⟨-, hst⟩ | ⟨-, hst⟩ | ⟨-, hst⟩ | ⟨-, hst⟩ := effectOf_status h
  · exact reservedZero_congr hst (setErr_reservedZero 0 hr)
  · exact reservedZero_congr hst (setArmed_reservedZero true hr)
  · exact reservedZero_congr hst (setArmed_reservedZero false hr)
  · exact reservedZero_congr hst hr

end Reserved

/-- Settles O18: faults and successful commands keep both halves of the invariant, and reset establishes them. -/
theorem stepKeepsTheInvariant : Obligations.StepKeepsTheInvariant := by
  intro s t hs hstep
  exact step_keeps (P := fun _ r => r.Inv ∧ r.ReservedZero) (fun _ => ⟨reset_inv, reset_reservedZero⟩)
    (fun w _ f h => ⟨recordFault_inv (width_gt_four w).le h.1 f, recordFault_reservedZero _ h.2⟩)
    (fun _ _ _ _ _ h hx => ⟨effectOf_inv h.1 hx, effectOf_reservedZero h.2 hx⟩) hs hstep

/-- Settles O19: every register of the reset state is 0. -/
theorem resetHasTheInvariant : Obligations.ResetHasTheInvariant := fun _ => ⟨reset_inv, reset_reservedZero⟩

/-- Settles O20: the moves placed are no part of the invariant, so reset has it, and every step keeps it. -/
theorem reachableStatesHaveTheInvariant : Obligations.ReachableStatesHaveTheInvariant := by
  intro w ms k t hrun
  have hstart : State.Inv { State.resetAt w with todo := ms } := resetHasTheInvariant w
  exact (runs_keeps stepKeepsTheInvariant hstart hrun).1

end Sys2Proof.Proofs.Invariant

/-! ## Proofs: the engines' groups and ranges (10_state.md R42, R44) -/

namespace Sys2Proof.Proofs.Engines

open Sys2Proof Sys2Proof.Machine Sys2Proof.Config Sys2Proof.Proofs.Effects Sys2Proof.Proofs.Status
open Sys2Proof.Proofs.Invariant

/-! ### Agreement on a group -/

section Agreement
variable {W : Nat} {e : Engine} {r q u : Regs W} {x : Regs W × Word W}

theorem agree_symm (h : e.Agree r q) : e.Agree q r :=
  ⟨fun n hn => (h.1 n hn).symm, fun he => (h.2 he).symm⟩

theorem agree_trans (h : e.Agree r q) (h' : e.Agree q u) : e.Agree r u :=
  ⟨fun n hn => (h.1 n hn).trans (h'.1 n hn), fun he => (h.2 he).trans (h'.2 he)⟩

theorem agree_parkMiller_iff : Engine.parkMiller.Agree r q ↔ r.pmX = q.pmX := by
  simp [Engine.Agree, Engine.registers, Regs.read]

theorem agree_lecuyer_iff : Engine.lecuyer.Agree r q ↔ r.lecX1 = q.lecX1 ∧ r.lecX2 = q.lecX2 := by
  simp [Engine.Agree, Engine.registers, Regs.read]

theorem agree_lcg_iff : Engine.lcg.Agree r q ↔
    r.lcgA = q.lcgA ∧ r.lcgC = q.lcgC ∧ r.lcgM = q.lcgM ∧ r.lcgX = q.lcgX := by
  simp [Engine.Agree, Engine.registers, Regs.read]

theorem agree_bbs_iff : Engine.bbs.Agree r q ↔
    (r.bbsP = q.bbsP ∧ r.bbsQ = q.bbsQ ∧ r.bbsX = q.bbsX ∧ r.bbsM = q.bbsM ∧ r.bbsAcc = q.bbsAcc ∧
      r.bbsCnt = q.bbsCnt ∧ r.bbsLen = q.bbsLen) ∧ r.armed = q.armed := by
  simp [Engine.Agree, Engine.registers, Regs.read]

/-- After a write of BBS_ARMED the files agree on it, whatever it was before. -/
theorem agree_setArmed (hW : 4 < W) (b : Bool)
    (h : r.bbsP = q.bbsP ∧ r.bbsQ = q.bbsQ ∧ r.bbsX = q.bbsX ∧ r.bbsM = q.bbsM ∧ r.bbsAcc = q.bbsAcc ∧
      r.bbsCnt = q.bbsCnt ∧ r.bbsLen = q.bbsLen) : Engine.bbs.Agree (r.setArmed b) (q.setArmed b) :=
  agree_bbs_iff.mpr ⟨h, by rw [armed_setArmed r hW, armed_setArmed q hW]⟩

theorem status_not_mem_registers (e : Engine) : RegName.status ∉ e.registers := by cases e <;> decide

/-- STATUS.ERR belongs to no group, so a fault changes none (R42). -/
theorem agree_recordFault (c : RespCode) : e.Agree r (r.recordFault c) :=
  ⟨fun _ hn => (read_recordFault_of_ne (fun h => status_not_mem_registers e (h ▸ hn)) c).symm,
    fun _ => (armed_recordFault r c).symm⟩

/-! ### No engine's command writes another engine's registers -/

theorem not_writtenBy_other_engine {e e' : Engine} (hne : e' ≠ e) :
    ∀ i ∈ e.commands, ∀ n ∈ e'.registers, i ∉ writtenBy n := by
  revert hne
  cases e <;> cases e' <;> decide

theorem not_armed_writer_of_other_engine (hne : Engine.bbs ≠ e) :
    ∀ i ∈ e.commands, i ≠ .bbsDraw ∧ i ≠ .bbsEmit ∧ i ≠ .bbsInit := by
  revert hne
  cases e <;> decide

theorem effectOf_agree_other {e' : Engine} (hne : e' ≠ e) {i : Instr} (hi : i ∈ e.commands) {d : Word W}
    (h : effectOf i d r = .ok x) : e'.Agree r x.1 := by
  refine ⟨fun n hn => (effectOf_read_frame h (not_writtenBy_other_engine hne i hi n hn)).symm, fun he => ?_⟩
  subst he
  obtain ⟨hdraw, hemit, hinit⟩ := not_armed_writer_of_other_engine hne i hi
  exact (effectOf_armed h hdraw hemit hinit).symm

/-! ### No engine's command reads another engine's registers -/

/-- Two runs of one command's effect that cannot be told apart from inside the engine: the same fault, or the same
`dout` and files that agree on the group. -/
def SameOutcome (e : Engine) (a b : Effect W) : Prop :=
  (∃ f, a = .error f ∧ b = .error f) ∨ (∃ x y, a = .ok x ∧ b = .ok y ∧ x.2 = y.2 ∧ e.Agree x.1 y.1)

theorem sameOutcome_error (f : Fault) : SameOutcome e (.error f : Effect W) (.error f) := .inl ⟨f, rfl, rfl⟩

theorem sameOutcome_ok {y : Regs W × Word W} (hdout : x.2 = y.2) (hregs : e.Agree x.1 y.1) :
    SameOutcome e (.ok x) (.ok y) := .inr ⟨x, y, rfl, rfl, hdout, hregs⟩

/-- A check that both runs decide alike. -/
theorem sameOutcome_ite {c : Prop} [Decidable c] {f : Fault} {a b : Effect W} (h : ¬ c → SameOutcome e a b) :
    SameOutcome e (if c then .error f else a) (if c then .error f else b) := by
  split
  · exact sameOutcome_error f
  · next hc => exact h hc

theorem pmStep_sameOutcome (h : Engine.parkMiller.Agree r q) :
    SameOutcome .parkMiller (pmStepEffect r) (pmStepEffect q) := by
  have hx := agree_parkMiller_iff.mp h
  simp only [pmStepEffect, ← hx]
  exact sameOutcome_ok rfl (agree_parkMiller_iff.mpr rfl)

theorem lecStep_sameOutcome (h : Engine.lecuyer.Agree r q) :
    SameOutcome .lecuyer (lecStepEffect r) (lecStepEffect q) := by
  obtain ⟨h₁, h₂⟩ := agree_lecuyer_iff.mp h
  simp only [lecStepEffect, ← h₁, ← h₂]
  exact sameOutcome_ok rfl (agree_lecuyer_iff.mpr ⟨rfl, rfl⟩)

theorem lcgStep_sameOutcome (h : Engine.lcg.Agree r q) :
    SameOutcome .lcg (lcgStepEffect r) (lcgStepEffect q) := by
  obtain ⟨ha, hc, hm, hx⟩ := agree_lcg_iff.mp h
  simp only [lcgStepEffect, ← ha, ← hc, ← hm, ← hx]
  exact sameOutcome_ite fun _ => sameOutcome_ok rfl (agree_lcg_iff.mpr ⟨rfl, rfl, rfl, rfl⟩)

theorem bbsInit_sameOutcome (hW : 4 < W) (h : Engine.bbs.Agree r q) :
    SameOutcome .bbs (bbsInitEffect r) (bbsInitEffect q) := by
  obtain ⟨⟨hp, hq, hx, -, -, -, -⟩, -⟩ := agree_bbs_iff.mp h
  simp only [bbsInitEffect, ← hp, ← hq, ← hx]
  refine sameOutcome_ite fun _ => sameOutcome_ite fun _ => sameOutcome_ite fun _ => sameOutcome_ok rfl ?_
  exact agree_setArmed hW false ⟨rfl, rfl, rfl, rfl, rfl, rfl, rfl⟩

theorem bbsDraw_sameOutcome (hW : 4 < W) (h : Engine.bbs.Agree r q) :
    SameOutcome .bbs (bbsDrawEffect r) (bbsDrawEffect q) := by
  obtain ⟨⟨hp, hq, hx, hm, -, -, -⟩, harmed⟩ := agree_bbs_iff.mp h
  simp only [bbsDrawEffect, ← hp, ← hq, ← hx, ← hm, ← harmed]
  refine sameOutcome_ite fun _ => sameOutcome_ite fun _ => sameOutcome_ok rfl ?_
  exact agree_setArmed hW true ⟨rfl, rfl, rfl, rfl, rfl, rfl, rfl⟩

theorem bbsBit_sameOutcome (h : Engine.bbs.Agree r q) :
    SameOutcome .bbs (bbsBitEffect r) (bbsBitEffect q) := by
  obtain ⟨⟨hp, hq, hx, hm, hacc, hcnt, hlen⟩, harmed⟩ := agree_bbs_iff.mp h
  simp only [bbsBitEffect, ← hp, ← hq, ← hx, ← hm, ← hacc, ← hcnt, ← hlen, ← harmed]
  refine sameOutcome_ite fun _ => sameOutcome_ite fun _ => sameOutcome_ok rfl ?_
  exact agree_bbs_iff.mpr ⟨⟨rfl, rfl, rfl, rfl, rfl, rfl, rfl⟩, harmed⟩

theorem bbsEmit_sameOutcome (hW : 4 < W) (h : Engine.bbs.Agree r q) :
    SameOutcome .bbs (bbsEmitEffect r) (bbsEmitEffect q) := by
  obtain ⟨⟨hp, hq, hx, hm, hacc, hcnt, hlen⟩, harmed⟩ := agree_bbs_iff.mp h
  simp only [bbsEmitEffect, ← hp, ← hq, ← hx, ← hm, ← hacc, ← hcnt, ← hlen, ← harmed]
  refine sameOutcome_ite fun _ => sameOutcome_ok rfl ?_
  exact agree_setArmed hW false ⟨rfl, rfl, rfl, rfl, rfl, rfl, rfl⟩

theorem bbsNext_sameOutcome (h : Engine.bbs.Agree r q) :
    SameOutcome .bbs (bbsNextEffect r) (bbsNextEffect q) := by
  obtain ⟨⟨hp, hq, hx, hm, -, -, -⟩, harmed⟩ := agree_bbs_iff.mp h
  simp only [bbsNextEffect, ← hp, ← hq, ← hx, ← hm, ← harmed]
  refine sameOutcome_ite fun _ => sameOutcome_ite fun _ => sameOutcome_ok rfl ?_
  exact agree_bbs_iff.mpr ⟨⟨rfl, rfl, rfl, rfl, rfl, rfl, rfl⟩, harmed⟩

/-- A command's effect depends on nothing but its engine's group; no engine's command takes a data word. -/
theorem effectOf_sameOutcome (hW : 4 < W) {i : Instr} (hi : i ∈ e.commands) (h : e.Agree r q) (d d' : Word W) :
    SameOutcome e (effectOf i d r) (effectOf i d' q) := by
  cases e with
  | parkMiller => cases List.mem_singleton.mp hi; exact pmStep_sameOutcome h
  | lecuyer => cases List.mem_singleton.mp hi; exact lecStep_sameOutcome h
  | lcg => cases List.mem_singleton.mp hi; exact lcgStep_sameOutcome h
  | bbs =>
    obtain rfl | rfl | rfl | rfl | rfl := mem_bbs_commands.mp hi
    · exact bbsInit_sameOutcome hW h
    · exact bbsDraw_sameOutcome hW h
    · exact bbsBit_sameOutcome h
    · exact bbsEmit_sameOutcome hW h
    · exact bbsNext_sameOutcome h

end Agreement

/-- Settles O23: what is read by `effectOf_sameOutcome`, what is written by `effectOf_agree_other`; a fault records
only STATUS.ERR, which is shared. -/
theorem enginesAreSeparate : Obligations.EnginesAreSeparate := by
  intro e i hi s q hagree
  have hsame := effectOf_sameOutcome (width_gt_four s.width) hi hagree s.din (State.din { s with regs := q })
  obtain ⟨f, hf, hf'⟩ | ⟨x, y, hx, hy, hdout, hregs⟩ := hsame
  · refine ⟨_, _, _, _, exec_error hf, exec_error (s := { s with regs := q }) hf', ?_,
      fun _ _ => agree_recordFault _⟩
    exact agree_trans (agree_symm (agree_recordFault _)) (agree_trans hagree (agree_recordFault _))
  · refine ⟨_, _, _, _, exec_ok hx, ?_, hregs, fun e' hne => effectOf_agree_other hne hi hx⟩
    rw [hdout]
    exact exec_ok (s := { s with regs := q }) hy

/-! ### The ranges the engines keep (R44) -/

section Ranges
variable {w : Width} {r : Regs w.bits} {d : Word w.bits} {x : Regs w.bits × Word w.bits}

/-- A value reduced modulo a register's positive value fits a register. -/
theorem sint_bits_of_range (b : Word w.bits) {v : Int} (h₀ : 0 ≤ v) (h : v < sint b) :
    sint (bits w.bits v) = v :=
  sint_bits_of_nonneg h₀ (h.trans (sint_lt b))

theorem pmStep_range (h : effectOf .pmStep d r = .ok x) (h₀ : 0 ≤ sint r.pmX) (h₁ : sint r.pmX < 2147483647) :
    0 ≤ sint x.1.pmX ∧ sint x.1.pmX < 2147483647 := by
  obtain ⟨y, rfl, rfl⟩ := pmStepEffect_ok h
  obtain ⟨hy₀, hy⟩ := schrage1_range h₀ h₁
  dsimp only
  rw [sint_bits_small w (by omega) (by omega)]
  exact ⟨hy₀, hy⟩

theorem lecStep_range (h : effectOf .lecStep d r = .ok x) :
    0 ≤ sint x.1.lecX1 ∧ sint x.1.lecX1 < 2147483647 ∧ 0 ≤ sint x.1.lecX2 ∧ sint x.1.lecX2 < 536870911 ∧
      0 ≤ sint x.1.res ∧ sint x.1.res < 2147483647 := by
  obtain ⟨y₁, y₂, z, hy₁, hy₂, rfl, rfl⟩ := lecStepEffect_ok h
  obtain ⟨h₁, h₁'⟩ := lecNext1_range (sint r.lecX1)
  obtain ⟨h₂, h₂'⟩ := lecNext2_range (sint r.lecX2)
  obtain ⟨hz, hz'⟩ := lecCombine_range y₁ y₂
  dsimp only
  rw [sint_bits_small w (v := y₁) (by omega) (by omega), sint_bits_small w (v := y₂) (by omega) (by omega),
    sint_bits_small w (v := lecCombine y₁ y₂) (by omega) (by omega)]
  omega

theorem lcgStep_range (h : effectOf .lcgStep d r = .ok x) :
    0 ≤ sint x.1.lcgX ∧ sint x.1.lcgX < sint x.1.lcgM ∧ 0 ≤ sint x.1.res ∧ sint x.1.res < sint x.1.lcgM := by
  obtain ⟨hm, v, rfl, rfl⟩ := lcgStepEffect_ok h
  obtain ⟨h₀, hlt⟩ := lcgNext_range (a := sint r.lcgA) (c := sint r.lcgC) (x := sint r.lcgX) hm
  dsimp only
  rw [sint_bits_of_range r.lcgM h₀ hlt]
  exact ⟨h₀, hlt, h₀, hlt⟩

theorem bbsInit_range (h : effectOf .bbsInit d r = .ok x) : 0 ≤ sint x.1.bbsX ∧ sint x.1.bbsX < sint x.1.bbsM := by
  obtain ⟨m, -, hpos, hcap, rfl⟩ := bbsInitEffect_ok h
  obtain ⟨h₀, hlt⟩ := bbsSquare_range (x := sint r.bbsX) hpos
  have hm : sint (bits w.bits m) = m := sint_bits_of_nonneg hpos.le hcap
  have hx := sint_bits_of_range (bits w.bits m) h₀ (by rwa [hm])
  simp only [setArmed_bbsX, setArmed_bbsM, hx, hm]
  exact ⟨h₀, hlt⟩

theorem bbsBit_range (h : effectOf .bbsBit d r = .ok x) : 0 ≤ sint x.1.bbsX ∧ sint x.1.bbsX < sint x.1.bbsM := by
  obtain ⟨hpos, -, -, y, rfl, rfl⟩ := bbsBitEffect_ok h
  obtain ⟨h₀, hlt⟩ := bbsSquare_range (x := sint r.bbsX) hpos
  dsimp only
  rw [sint_bits_of_range r.bbsM h₀ hlt]
  exact ⟨h₀, hlt⟩

/-- What BBS_NEXT collects is a value of at most 29 bits (R104). -/
theorem bbsCollect_drawn_range (m x : Int) :
    0 ≤ (bbsCollect m (bbsDrawLength x).toNat x 0).2 ∧ (bbsCollect m (bbsDrawLength x).toNat x 0).2 < 2 ^ 29 := by
  obtain ⟨hlen₀, hlen⟩ := bbsDrawLength_range x
  obtain ⟨hlow, hhigh⟩ := bbsCollect_acc_range m (bbsDrawLength x).toNat x 0 le_rfl
  rw [zero_mul] at hlow
  rw [zero_add, one_mul] at hhigh
  exact ⟨hlow, hhigh.trans_le (two_pow_le_of_le_29 (by omega))⟩

theorem bbsNext_range (h : effectOf .bbsNext d r = .ok x) :
    0 ≤ sint x.1.res ∧ sint x.1.res < 2 ^ 29 ∧
      (0 ≤ sint r.bbsX → sint r.bbsX < sint r.bbsM → 0 ≤ sint x.1.bbsX ∧ sint x.1.bbsX < sint x.1.bbsM) := by
  obtain ⟨hpos, -, len, out, rfl, rfl, rfl⟩ := bbsNextEffect_ok h
  obtain ⟨hv₀, hv⟩ := bbsCollect_drawn_range (sint r.bbsM) (sint r.bbsX)
  dsimp only
  rw [sint_bits_small w (by omega) (by omega)]
  refine ⟨hv₀, hv, fun hx₀ hx => ?_⟩
  obtain ⟨h₀, hlt⟩ := bbsCollect_state_range hpos (bbsDrawLength (sint r.bbsX)).toNat _ 0 hx₀ hx
  rw [sint_bits_of_range r.bbsM h₀ hlt]
  exact ⟨h₀, hlt⟩

theorem bbsEmit_range (hr : r.Inv) (h : effectOf .bbsEmit d r = .ok x) :
    0 ≤ sint x.1.res ∧ sint x.1.res < 2 ^ 29 := by
  obtain ⟨-, -, rfl⟩ := bbsEmitEffect_ok h
  exact acc_range hr

end Ranges

/-- Settles O24: each command's range is a fact about its success; PM_STEP and LEC_STEP have no fault. -/
theorem enginesKeepTheirRanges : Obligations.EnginesKeepTheirRanges := by
  intro s
  have hpm : effectOf .pmStep s.din s.regs = .ok _ := rfl
  have hlec : effectOf .lecStep s.din s.regs = .ok _ := rfl
  refine ⟨⟨_, _, exec_ok hpm, pmStep_range hpm⟩, ⟨_, _, exec_ok hlec, lecStep_range hlec⟩, ?_, ?_, ?_, ?_, ?_⟩
  · exact exec_of_success fun _ hx => lcgStep_range hx
  · exact exec_of_success fun _ hx => bbsInit_range hx
  · exact exec_of_success fun _ hx => bbsBit_range hx
  · exact exec_of_success fun _ hx => bbsNext_range hx
  · obtain ⟨r, resp, dout, hexec, hrange⟩ := exec_of_success (i := .bbsEmit)
      (P := fun r => s.regs.Inv → 0 ≤ sint r.res ∧ sint r.res < 2 ^ 29) fun _ hx hinv => bbsEmit_range hinv hx
    exact ⟨r, resp, dout, hexec, fun hinv h0 => hrange h0 hinv⟩

end Sys2Proof.Proofs.Engines

/-! ## Proofs: one step is one host move (20_memory.md R47 to R49) -/

namespace Sys2Proof.Proofs.HostMoves

open Sys2Proof Sys2Proof.Machine

/-- Whatever its effect, a command ends its transaction with one response (R48). -/
theorem exec_ended (s : State) (i : Instr) : ∃ r resp dout, exec i s = .next (s.ended r resp dout) := by
  rw [exec_eq, conclude_ended]
  exact ⟨_, _, _, rfl⟩

/-- A reset move leaves the reset registers and the moves behind it, and returns no response (R144). -/
theorem step_reset_ranTo {s : State} {rest : List (HostMove s.W)} (h : s.todo = .reset :: rest) :
    step s = .next (s.ranTo (Regs.reset s.W) rest []) := by
  rw [step_reset s h, takeReset_eq, h, List.tail_cons]

/-- Settles O7: one clause for each form of the host's next move. -/
theorem stepRunsTheDecodedCommand : Obligations.StepRunsTheDecodedCommand := by
  refine ⟨?transaction, ?reset, ?idle⟩
  case transaction =>
    intro s cmd d rest i htodo hdecode
    exact ⟨step_ok s d htodo hdecode, exec_ended s i⟩
  case reset => exact fun _ _ htodo => step_reset_ranTo htodo
  case idle => exact step_nil

end Sys2Proof.Proofs.HostMoves

/-! ## Proofs: the decoder and the encoder (30_encoding.md R60 to R64) -/

namespace Sys2Proof.Proofs.Encoding

open Sys2Proof Sys2Proof.Machine

/-! ### What the decoder accepts -/

section Decoder
variable {w : CmdWord} {i : Instr}

/-- The three conditions of R64, in the order in which the decoder checks them. -/
theorem decode_eq_ok_iff : decode w = .ok i ↔
    commandOf (opField w) (regField w) = some i ∧ zeroField w = 0 ∧ (i.regOperand = none → regField w = 0) := by
  unfold decode
  cases commandOf (opField w) (regField w) with
  | none => simp
  | some j =>
    dsimp only
    constructor
    · intro h
      split at h
      · cases h
      next hzero =>
        split at h
        · cases h
        next hreg =>
          cases h
          exact ⟨rfl, not_not.mp hzero, fun hnone => by_contra fun hne => hreg ⟨hnone, hne⟩⟩
    · rintro ⟨⟨rfl⟩, hzero, hreg⟩
      rw [if_neg (not_not.mpr hzero), if_neg fun ⟨hnone, hne⟩ => hne (hreg hnone)]

/-- An OP outside the map of R63 is the first reason to reject a word. -/
theorem decode_unassigned
    (h : opField w ∉ [0x00, 0x01, 0x02, 0x03, 0x08, 0x0C, 0x10, 0x14, 0x15, 0x16, 0x17, 0x18]) :
    decode w = .error .unassignedOpcode := by
  rw [decode, (commandOf_eq_none _ _).mpr h]

theorem regField_lt (w : CmdWord) : regField w < 32 := BitVec.isLt _

/-- Only the operand's bound is asked of a command (R61). -/
theorem wellFormed_iff : i.wellFormed = true ↔ i.regOperand.getD 0 < 32 := by
  unfold Instr.wellFormed
  cases i.regOperand <;> simp

/-- RD and WR are the only commands with a register operand (R61). -/
theorem regOperand_eq_none_iff : i.regOperand = none ↔ (opcodeOf i).toNat ∉ [0x01, 0x02] := by
  cases i <;> simp [Instr.regOperand, opcodeOf]

/-- The fields OP and REG of a word are its command's opcode and operand, 0 standing for no operand. -/
theorem fields_of_decode (h : decode w = .ok i) :
    (opcodeOf i).toNat = opField w ∧ i.regOperand.getD 0 = regField w := by
  obtain ⟨hcommand, -, hreg⟩ := decode_eq_ok_iff.mp h
  obtain ⟨hop, hnone | hsome⟩ := commandOf_some hcommand
  · rw [hnone]; exact ⟨hop, (hreg hnone).symm⟩
  · rw [hsome]; exact ⟨hop, rfl⟩

theorem encode_of_decode (h : decode w = .ok i) : i.wellFormed = true ∧ encode i = w := by
  obtain ⟨hop, hreg⟩ := fields_of_decode h
  obtain ⟨-, hzero, -⟩ := decode_eq_ok_iff.mp h
  have hlt : i.regOperand.getD 0 < 32 := hreg ▸ regField_lt w
  obtain ⟨hop', hreg', hzero'⟩ := Laws.EncodeFieldsLegal.of_operand_lt i hlt
  exact ⟨wellFormed_iff.mpr hlt,
    word_eq_of_fields (hop'.trans hop) (hreg'.trans hreg) (hzero'.trans hzero.symm)⟩

theorem decode_encode (h : i.wellFormed = true) : decode (encode i) = .ok i := by
  obtain ⟨hop, hreg, hzero⟩ := Laws.EncodeFieldsLegal.of_operand_lt i (wellFormed_iff.mp h)
  have hoperand : i.regOperand = none ∨ i.regOperand = some (i.regOperand.getD 0) := by
    cases i.regOperand <;> simp
  rw [decode_eq_ok_iff, hop, hreg]
  exact ⟨commandOf_opcodeOf i _ hoperand, hzero, fun hnone => by rw [hnone]; rfl⟩

/-- A word written out decodes to the command whose encoding it is. -/
theorem decode_word (hwf : i.wellFormed = true) (hword : encode i = w) : decode w = .ok i :=
  hword ▸ decode_encode hwf

end Decoder

/-- Settles O5: a decoded word has the three fields of the command's encoding, and those fields decode to it. -/
theorem decodeAndEncodeAgree : Obligations.DecodeAndEncodeAgree := by
  intro w i
  constructor
  · exact encode_of_decode
  · exact fun ⟨hwf, hword⟩ => decode_word hwf hword

/-! ### The words of RD and WR -/

theorem encode_toNat (i : Instr) :
    (encode i).toNat = (opcodeOf i).toNat <<< 26 ||| (i.regOperand.getD 0 % 32) <<< 21 := by
  calc (encode i).toNat
      = (opcodeOf i ++ BitVec.ofNat 5 (i.regOperand.getD 0)).toNat <<< 21 ||| 0 := BitVec.toNat_append _ 0#21
    _ = _ := by
      rw [BitVec.toNat_append, BitVec.toNat_ofNat, Nat.or_zero, Nat.shiftLeft_or_distrib, ← Nat.shiftLeft_add]

/-- The word of a command with a register operand, as R63 writes it: the opcode's word with the index in REG. -/
theorem encode_eq_or {i : Instr} {reg : Nat} {op : CmdWord} (h : i.regOperand = some reg)
    (hop : BitVec.ofNat 32 ((opcodeOf i).toNat <<< 26) = op) (hreg : reg < 32) :
    encode i = op ||| BitVec.ofNat 32 (reg <<< 21) := by
  have hword : (opcodeOf i).toNat <<< 26 ||| reg <<< 21 = (encode i).toNat := by
    rw [encode_toNat, h, Option.getD_some, Nat.mod_eq_of_lt hreg]
  rw [← hop, ← BitVec.ofNat_or, hword, BitVec.ofNat_toNat, BitVec.setWidth_eq]

theorem encode_rd {reg : Nat} (hreg : reg < 32) :
    encode (.rd reg) = 0x04000000#32 ||| BitVec.ofNat 32 (reg <<< 21) :=
  encode_eq_or rfl (by simp [opcodeOf]) hreg

theorem encode_wr {reg : Nat} (hreg : reg < 32) :
    encode (.wr reg) = 0x08000000#32 ||| BitVec.ofNat 32 (reg <<< 21) :=
  encode_eq_or rfl (by simp [opcodeOf]) hreg

theorem decode_rd_word {reg : Nat} (hreg : reg < 32) :
    decode (0x04000000 ||| BitVec.ofNat 32 (reg <<< 21)) = .ok (.rd reg) :=
  decode_word (wellFormed_iff.mpr hreg) (encode_rd hreg)

theorem decode_wr_word {reg : Nat} (hreg : reg < 32) :
    decode (0x08000000 ||| BitVec.ofNat 32 (reg <<< 21)) = .ok (.wr reg) :=
  decode_word (wellFormed_iff.mpr hreg) (encode_wr hreg)

/-! ### The legal words -/

/-- The commands that the encoding can express: ten without an operand, and RD and WR of each index. -/
def wellFormedCommands : List Instr :=
  [.nop, .clrErr, .pmStep, .lecStep, .lcgStep, .bbsInit, .bbsDraw, .bbsBit, .bbsEmit, .bbsNext] ++
    (List.range 32).map .rd ++ (List.range 32).map .wr

theorem mem_wellFormedCommands {i : Instr} : i ∈ wellFormedCommands ↔ i.wellFormed = true := by
  cases i <;> simp [wellFormedCommands, Instr.wellFormed, Instr.regOperand]

theorem nodup_wellFormedCommands : wellFormedCommands.Nodup := by decide

theorem length_wellFormedCommands : wellFormedCommands.length = 74 := by decide

/-- A word means one command, so a well-formed command has a word of its own. -/
theorem encode_inj {i j : Instr} (hi : i.wellFormed = true) (hj : j.wellFormed = true) (h : encode i = encode j) :
    i = j := by
  have hdecode := decode_encode hj
  rw [← h, decode_encode hi] at hdecode
  exact Except.ok.inj hdecode

/-- The words of the well-formed commands. -/
def legalWords : List CmdWord := wellFormedCommands.map encode

theorem mem_legalWords {w : CmdWord} : w ∈ legalWords ↔ ∃ i, decode w = .ok i := by
  simp only [legalWords, List.mem_map, mem_wellFormedCommands, ← decodeAndEncodeAgree w]

theorem nodup_legalWords : legalWords.Nodup :=
  nodup_wellFormedCommands.map_on fun _ hi _ hj =>
    encode_inj (mem_wellFormedCommands.mp hi) (mem_wellFormedCommands.mp hj)

theorem length_legalWords : legalWords.length = 74 := by
  rw [legalWords, List.length_map, length_wellFormedCommands]

/-- R64: a word is legal exactly when OP is assigned, ZERO is 0, and REG is 0 unless OP is that of RD or WR. -/
theorem legal_iff (w : CmdWord) : (∃ i, decode w = .ok i) ↔
    opField w ∈ [0x00, 0x01, 0x02, 0x03, 0x08, 0x0C, 0x10, 0x14, 0x15, 0x16, 0x17, 0x18] ∧
      zeroField w = 0 ∧ (opField w ∈ [0x01, 0x02] ∨ regField w = 0) := by
  cases hcommand : commandOf (opField w) (regField w) with
  | none =>
    have hop := (commandOf_eq_none _ _).mp hcommand
    simp only [decode_eq_ok_iff, hcommand, hop, false_and, reduceCtorEq, exists_false]
  | some i =>
    have hop : opField w ∈ [0x00, 0x01, 0x02, 0x03, 0x08, 0x0C, 0x10, 0x14, 0x15, 0x16, 0x17, 0x18] := by
      by_contra hnot
      simp [(commandOf_eq_none _ (regField w)).mpr hnot] at hcommand
    have hoperand : (i.regOperand = none → regField w = 0) ↔ opField w ∈ [0x01, 0x02] ∨ regField w = 0 := by
      rw [regOperand_eq_none_iff, (commandOf_some hcommand).1, imp_iff_not_or, not_not]
    simp only [decode_eq_ok_iff, hcommand, Option.some.injEq, exists_eq_left', hoperand, hop, true_and]

/-! ### Unimplemented indices at execution -/

/-- The indices of R19 that name no register. -/
theorem ofIndex_eq_none {reg : Nat} (h : reg = 0x03 ∨ 0x12 ≤ reg) : RegName.ofIndex reg = none := by
  unfold RegName.ofIndex
  split <;> simp at h ⊢

theorem exec_rd_badRegister (s : State) {reg : Nat} (h : RegName.ofIndex reg = none) :
    exec (.rd reg) s = .next (s.faulted 2) := by
  have heffect : effectOf (.rd reg) s.din s.regs = .error .badRegister := by simp [effectOf, rdEffect, h]
  exact Effects.exec_error heffect

theorem exec_wr_badRegister (s : State) {reg : Nat} (h : RegName.ofIndex reg = none) :
    exec (.wr reg) s = .next (s.faulted 2) := by
  have heffect : effectOf (.wr reg) s.din s.regs = .error .badRegister := by simp [effectOf, wrEffect, h]
  exact Effects.exec_error heffect

/-- Settles O6: the count is that of the well-formed commands, each of which has a word of its own. -/
theorem legalWordsAreExactlyTheSeventyFour : Obligations.LegalWordsAreExactlyTheSeventyFour := by
  refine ⟨legal_iff, ?fields, ⟨legalWords, nodup_legalWords, length_legalWords, fun _ => mem_legalWords⟩,
    ?illegal, ?unimplemented⟩
  case fields =>
    intro w i h
    obtain ⟨hop, hreg⟩ := fields_of_decode h
    exact ⟨BitVec.eq_of_toNat_eq hop, hreg⟩
  case illegal => exact fun s _ d _ _ htodo herror => step_error s d htodo herror
  case unimplemented =>
    intro s reg hreg
    have hlt : reg < 32 := by omega
    have hnone : RegName.ofIndex reg = none := ofIndex_eq_none (by omega)
    exact ⟨decode_rd_word hlt, decode_wr_word hlt, exec_rd_badRegister s hnone, exec_wr_badRegister s hnone⟩

/-- Settles O3: each assigned word is the encoding of its command. -/
theorem assignedOpcodesDecodeToTheirCommands : Obligations.AssignedOpcodesDecodeToTheirCommands :=
  ⟨decode_word rfl rfl, fun _ => decode_rd_word, fun _ => decode_wr_word, decode_word rfl rfl,
    decode_word rfl rfl, decode_word rfl rfl, decode_word rfl rfl, decode_word rfl rfl, decode_word rfl rfl,
    decode_word rfl rfl, decode_word rfl rfl, decode_word rfl rfl, fun _ => decode_unassigned⟩

/-- Settles O4: the legal words are encodings, and each illegal one fails the check named. -/
theorem writtenOutWordsDecode : Obligations.WrittenOutWordsDecode := by
  refine ⟨decode_word rfl rfl, decode_word rfl rfl, decode_word rfl rfl, decode_word rfl rfl, decode_word rfl rfl,
    decode_word rfl rfl, ?zeroField, ?registerField, decode_unassigned (by decide)⟩
  case zeroField => rfl
  case registerField => rfl

end Sys2Proof.Proofs.Encoding

/-! ## Proofs: the pseudo-instructions (30_encoding.md R67, R68) -/

namespace Sys2Proof.Proofs.Assembler

open Sys2Proof Sys2Proof.Machine Sys2Proof.Config

section Lines
variable {W : Nat}

/-- What a register's pattern reads as is a value that the assembler takes (R67). -/
theorem fitsWord_sint (a : Word W) : fitsWord W (sint a) = true := by
  have hlow := le_sint a
  have hhigh := sint_lt a
  simp [fitsWord, hlow, hhigh]

/-- The command line `c` issues the transaction `m` (R67). -/
def Issues (W : Nat) (c : AsmCommand) (m : HostMove W) : Prop := assembleCommand W c = some m

theorem plain_issues (i : Instr) : Issues W (.plain i) (.transaction (encode i) 0) := rfl

/-- A WR line whose value is `sint_W` of a pattern issues a WR of that pattern. -/
theorem write_issues {reg : Nat} {word : CmdWord} (hword : encode (.wr reg) = word) (a : Word W) :
    Issues W (.write reg (sint a)) (.transaction word a) := by
  rw [Issues, assembleCommand, if_pos (fitsWord_sint a), bits_sint, hword]

/-- Command lines that each issue a transaction issue them in order. -/
theorem assembleAll_of_issues {cs : List AsmCommand} {ms : List (HostMove W)} (h : List.Forall₂ (Issues W) cs ms) :
    assembleAll W cs = some ms := by
  induction h with
  | nil => rfl
  | cons hc _ ih => rw [assembleAll, hc, ih]

theorem assembleLine_of_issues {l : AsmLine} {ms : List (HostMove W)}
    (h : List.Forall₂ (Issues W) (expandLine l) ms) : assembleLine W l = some ms := assembleAll_of_issues h

/-- REP issues its command's transaction `n` times (R68). -/
theorem assembleLine_rep (n : Nat) {c : AsmCommand} {m : HostMove W} (h : Issues W c m) :
    assembleLine W (.rep n c) = some (List.replicate n m) := by
  refine assembleLine_of_issues (l := .rep n c) ?_
  rw [expandLine]
  induction n with
  | zero => exact .nil
  | succ n ih => exact .cons h ih

end Lines

/-- Settles O51: each line's WRs are of the registers R68 names, in its order. -/
theorem pseudoInstructionsExpandToTheirTransactions : Obligations.PseudoInstructionsExpandToTheirTransactions := by
  intro w a b c d i n
  refine ⟨?pmSeed, ?lecSeed, ?lcgSet, ?bbsSetup, ?repPlain, ?repWrite⟩
  case pmSeed => exact assembleLine_of_issues (.cons (write_issues (by decide) a) .nil)
  case lecSeed =>
    exact assembleLine_of_issues (.cons (write_issues (by decide) a) (.cons (write_issues (by decide) b) .nil))
  case lcgSet =>
    exact assembleLine_of_issues (.cons (write_issues (by decide) a) (.cons (write_issues (by decide) b)
      (.cons (write_issues (by decide) c) (.cons (write_issues (by decide) d) .nil))))
  case bbsSetup =>
    exact assembleLine_of_issues (.cons (write_issues (by decide) a) (.cons (write_issues (by decide) b)
      (.cons (write_issues (by decide) c) (.cons (plain_issues .bbsInit) .nil))))
  case repPlain => exact assembleLine_rep n (plain_issues i)
  case repWrite => exact fun reg hreg => assembleLine_rep n (write_issues (Encoding.encode_wr hreg) a)

end Sys2Proof.Proofs.Assembler

/-! ## Proofs: the host access commands (40_host_access.md R76 to R79) -/

namespace Sys2Proof.Proofs.HostAccess

open Sys2Proof Sys2Proof.Machine Sys2Proof.Proofs.Effects Sys2Proof.Proofs.Encoding

/-! ### RD and WR of an implemented register -/

theorem ofIndex_index (n : RegName) : RegName.ofIndex n.index = some n := by
  cases n <;> rfl

/-- RD returns the register's pattern and changes nothing (R77). -/
theorem exec_rd_index (s : State) (n : RegName) :
    exec (.rd n.index) s = .next (s.ended s.regs 0 (s.regs.read n)) := by
  have heffect : effectOf (.rd n.index) s.din s.regs = .ok (s.regs, s.regs.read n) := by
    simp [effectOf, rdEffect, ofIndex_index]
  exact exec_ok heffect

/-- WR of a RW register writes the data word of the transaction on the port, with no check of it (R78). -/
theorem exec_wr_readWrite (s : State) {n : RegName} (hrw : n.readOnly = false) :
    exec (.wr n.index) s = .next (s.ended (s.regs.write n s.din) 0 0) := by
  have heffect : effectOf (.wr n.index) s.din s.regs = .ok (s.regs.write n s.din, 0) := by
    simp [effectOf, wrEffect, ofIndex_index, hrw]
  exact exec_ok heffect

/-! ### The register map as a table (10_state.md R19) -/

/-- The implemented registers in the order of their indices. -/
def registerMap : List RegName :=
  [.status, .id, .res, .pmX, .lecX1, .lecX2, .lcgA, .lcgC, .lcgM, .lcgX, .bbsP, .bbsQ, .bbsX, .bbsM, .bbsAcc, .bbsCnt,
    .bbsLen]

/-- Settles O27: NOP's effect is the registers as they are. -/
theorem nopChangesNothing : Obligations.NopChangesNothing := by
  have hdecode : decode 0x00000000 = .ok .nop := decode_word rfl rfl
  have heffect (s : State) : effectOf .nop s.din s.regs = .ok (s.regs, 0) := rfl
  exact ⟨hdecode, fun s => exec_ok (heffect s)⟩

/-- Settles O28: the table is the register map with the pattern that each register reads as. -/
theorem rdReturnsTheRegister : Obligations.RdReturnsTheRegister := by
  refine ⟨fun _ => decode_rd_word, fun s => ⟨?implemented, ?unimplemented⟩⟩
  case implemented =>
    refine List.forall_mem_map (l := registerMap) (f := fun n => (n.index, s.regs.read n)).mpr fun n _ => ?_
    exact exec_rd_index s n
  case unimplemented => exact fun _ hreg => exec_rd_badRegister s (ofIndex_eq_none hreg)

/-- Settles O29: the two tables are the RW and the RO part of the register map. -/
theorem wrWritesTheDataWord : Obligations.WrWritesTheDataWord := by
  refine ⟨fun _ => decode_wr_word, fun s _ d _ htodo => ⟨?readWrite, ?readOnly, ?unimplemented⟩⟩
  case readWrite =>
    refine List.forall_mem_map (l := registerMap.filter fun n => !n.readOnly)
      (f := fun n => (n.index, s.regs.write n d)).mpr fun n hn => ?_
    have hrw : n.readOnly = false := by simpa using List.of_mem_filter hn
    rw [exec_wr_readWrite s hrw, din_eq s d htodo]
  case readOnly =>
    exact List.forall_mem_map (l := registerMap.filter RegName.readOnly) (f := RegName.index).mpr
      fun n hn => Status.exec_wr_readOnly s (ofIndex_index n) (List.of_mem_filter hn)
  case unimplemented => exact fun _ hreg => exec_wr_badRegister s (ofIndex_eq_none hreg)

/-- Settles O31: CLR_ERR is `setErr 0`, which writes the four bits of ERR and, where they are 0 already, nothing. -/
theorem clrErrClearsOnlyErr : Obligations.ClrErrClearsOnlyErr := by
  refine ⟨decode_word rfl rfl, fun s => ⟨(s.regs.setErr 0).status, ?exec, ?bits, ?unchanged⟩⟩
  case exec =>
    have heffect : effectOf .clrErr s.din s.regs = .ok (s.regs.setErr 0, 0) := rfl
    exact exec_ok heffect
  case bits =>
    intro k
    have hzero : (0 : RespCode).getLsbD k = false := BitVec.getLsbD_zero
    rw [setErr_getLsbD, hzero, Bool.and_false]
  case unchanged =>
    intro herr
    have hsame : s.regs.setErr 0 = s.regs := by rw [← herr, setErr_err]
    rw [hsame]

end Sys2Proof.Proofs.HostAccess

/-! ## Proofs: the Schrage primitive and PM_STEP (41_parkmiller.md R81 to R84) -/

namespace Sys2Proof.Proofs.ParkMiller

open Sys2Proof Sys2Proof.Machine Sys2Proof.Config Sys2Proof.Proofs.Effects

/-! ### The primitive for any constants -/

/-- The `t` of R81, before the correction. -/
def schrageDiff (a q r x : Int) : Int := a * floorMod x q - r * floorDiv x q

theorem schrage_eq (a m q r x : Int) :
    schrage a m q r x = if schrageDiff a q r x < 0 then schrageDiff a q r x + m else schrageDiff a q r x := rfl

theorem schrage_of_neg {a m q r x : Int} (h : schrageDiff a q r x < 0) :
    schrage a m q r x = schrageDiff a q r x + m := if_pos h

theorem schrage_of_nonneg {a m q r x : Int} (h : 0 ≤ schrageDiff a q r x) :
    schrage a m q r x = schrageDiff a q r x := if_neg (not_lt.mpr h)

/-- Division by `q` has one quotient and one remainder in `[0, q)` (R10). -/
theorem floorDiv_floorMod_of_decomposition {x q hi lo : Int} (hq : 0 < q) (hx : x = q * hi + lo) (h₀ : 0 ≤ lo)
    (hlo : lo < q) : floorDiv x q = hi ∧ floorMod x q = lo := by
  rw [floorDiv_eq hq.le, floorMod_eq hq.le, Int.ediv_emod_unique hq]
  exact ⟨by rw [hx, add_comm], h₀, hlo⟩

section Constants
variable {a m q r x : Int}

/-- Schrage's identity: with `m = a * q + r`, `t` is the exact product less `m` times the quotient. -/
theorem schrageDiff_eq_sub (hm : a * q + r = m) : schrageDiff a q r x = a * x - m * floorDiv x q := by
  rw [schrageDiff, floorMod, ← hm]
  ring

/-- Neither the identity nor the correction changes the residue (R83). -/
theorem schrage_modEq (hm : a * q + r = m) : schrage a m q r x ≡ a * x [ZMOD m] := by
  have hdiff : schrageDiff a q r x ≡ a * x [ZMOD m] := by
    rw [schrageDiff_eq_sub hm]
    exact Int.modEq_iff_dvd.mpr ⟨floorDiv x q, sub_sub_cancel _ _⟩
  rcases lt_or_ge (schrageDiff a q r x) 0 with hneg | hnonneg
  · rw [schrage_of_neg hneg]
    exact Int.add_modEq_right.trans hdiff
  · rwa [schrage_of_nonneg hnonneg]

/-- The product of the remainder lies in `[0, m)`, whatever `x` is. -/
theorem mul_floorMod_range (ha : 0 < a) (hq : 0 < q) (hr : 0 ≤ r) (hm : a * q + r = m) :
    0 ≤ a * floorMod x q ∧ a * floorMod x q < m := by
  have hlt : a * floorMod x q < a * q := mul_lt_mul_of_pos_left (floorMod_lt hq) ha
  exact ⟨mul_nonneg ha.le (floorMod_nonneg hq), by omega⟩

/-- One correction brings `t` into `[0, m)` as long as `r * floorDiv x q` is in `[0, m]` (R83). -/
theorem schrage_range_of_quotient (ha : 0 < a) (hq : 0 < q) (hr : 0 ≤ r) (hm : a * q + r = m)
    (h₀ : 0 ≤ r * floorDiv x q) (h₁ : r * floorDiv x q ≤ m) :
    0 ≤ schrage a m q r x ∧ schrage a m q r x < m := by
  obtain ⟨hlo₀, hlo⟩ := mul_floorMod_range (x := x) ha hq hr hm
  rw [schrage_eq, schrageDiff]
  split <;> omega

/-- There the result, being congruent to the exact product, is its residue (R83). -/
theorem schrage_eq_emod_of_quotient (ha : 0 < a) (hq : 0 < q) (hr : 0 ≤ r) (hm : a * q + r = m)
    (h₀ : 0 ≤ r * floorDiv x q) (h₁ : r * floorDiv x q ≤ m) : schrage a m q r x = (a * x) % m := by
  obtain ⟨hnonneg, hlt⟩ := schrage_range_of_quotient ha hq hr hm h₀ h₁
  rw [← (schrage_modEq hm).eq, Int.emod_eq_of_lt hnonneg hlt]

/-- For every `x` the result is within `2 * m` of `-r * floorDiv x q` (R84). -/
theorem schrage_add_quotient_range (ha : 0 < a) (hq : 0 < q) (hr : 0 ≤ r) (hm : a * q + r = m) :
    0 ≤ schrage a m q r x + r * floorDiv x q ∧ schrage a m q r x + r * floorDiv x q < 2 * m := by
  obtain ⟨hlo₀, hlo⟩ := mul_floorMod_range (x := x) ha hq hr hm
  rw [schrage_eq, schrageDiff]
  split <;> omega

end Constants

/-! ### The two constant sets -/

/-- R83's exact interval for set 1: its quotients are those up to 757222. -/
theorem schrage1_eq_emod {x : Int} (h₀ : 0 ≤ x) (h₁ : x ≤ 96752654378) :
    schrage1 x = (16807 * x) % 2147483647 := by
  have hquot : floorDiv x 127773 = x / 127773 := floorDiv_eq (by decide)
  exact schrage_eq_emod_of_quotient (by decide) (by decide) (by decide) (by decide) (by omega)
    (by rw [m1]; omega)

/-- Set 2 is exact on all of `[0, m2)`. -/
theorem schrage2_eq_emod {x : Int} (h₀ : 0 ≤ x) (h₁ : x < 536870911) :
    schrage2 x = (48271 * x) % 536870911 := by
  have hquot : floorDiv x 11122 = x / 11122 := floorDiv_eq (by decide)
  exact schrage_eq_emod_of_quotient (by decide) (by decide) (by decide) (by decide) (by omega)
    (by rw [m2]; omega)

theorem schrage1_modEq (x : Int) : schrage1 x ≡ 16807 * x [ZMOD 2147483647] :=
  schrage_modEq (by decide)

/-- In a symmetric range of at least 64 bits the quotient's multiple is so much smaller than `x` that `2 * m1`
still fits beside it. -/
theorem schrage1_fits {half x : Int} (hhalf : 9223372036854775808 ≤ half) (hlow : -half ≤ x) (hhigh : x < half) :
    -half ≤ schrage1 x ∧ schrage1 x < half := by
  have hquot : floorDiv x 127773 = x / 127773 := floorDiv_eq (by decide)
  have hrange : 0 ≤ schrage1 x + 2836 * floorDiv x 127773 ∧
      schrage1 x + 2836 * floorDiv x 127773 < 2 * 2147483647 :=
    schrage_add_quotient_range (by decide) (by decide) (by decide) (by decide)
  omega

theorem schrage2_fits {half x : Int} (hhalf : 9223372036854775808 ≤ half) (hlow : -half ≤ x) (hhigh : x < half) :
    -half ≤ schrage2 x ∧ schrage2 x < half := by
  have hquot : floorDiv x 11122 = x / 11122 := floorDiv_eq (by decide)
  have hrange : 0 ≤ schrage2 x + 849 * floorDiv x 11122 ∧ schrage2 x + 849 * floorDiv x 11122 < 2 * 536870911 :=
    schrage_add_quotient_range (by decide) (by decide) (by decide) (by decide)
  omega

/-! ### PM_STEP -/

/-- PM_X takes the Schrage result unwrapped: a register of any legal width holds it (R82, R84). -/
theorem sint_bits_schrage1 (w : Width) (b : Word w.bits) :
    sint (bits w.bits (schrage1 (sint b))) = schrage1 (sint b) := by
  obtain ⟨hlow, hhigh⟩ := schrage1_fits (Width.half_ge w) (le_sint b) (sint_lt b)
  exact sint_bits (Width.bits_pos w) hlow hhigh

/-- PM_STEP has no guard, so it succeeds in every state (R82). -/
theorem exec_pmStep (s : State) {y : Word s.W} (hy : y = bits s.W (schrage1 (sint s.regs.pmX))) :
    exec .pmStep s = .next (s.ended { s.regs with pmX := y, res := y } 0 y) := by
  have heffect : effectOf .pmStep s.din s.regs = .ok ({ s.regs with pmX := y, res := y }, y) := by
    rw [hy]
    rfl
  exact exec_ok heffect

/-! ### The obligations -/

/-- Settles O33: exact while the quotient's multiple stays in `[0, m]`, which for set 1 ends one below
`127773 * 757223` and for set 2 not before `m2`; the first failing product is evaluated. -/
theorem schrageIsExactUpToItsBound : Obligations.SchrageIsExactUpToItsBound := by
  refine ⟨fun _ => schrage1_eq_emod, by decide, by decide, by decide, by decide, by decide, by decide, ?congruent,
    fun _ => schrage2_eq_emod⟩
  case congruent => exact fun x => (schrage1_modEq x).eq

/-- Settles O34: half the range of a legal width is at least `2 ^ 63`. -/
theorem schrageResultsFitTheRegister : Obligations.SchrageResultsFitTheRegister := by
  intro w x hlow hhigh
  have hhalf := Width.half_ge w
  exact ⟨schrage1_fits hhalf hlow hhigh, schrage2_fits hhalf hlow hhigh⟩

/-- Settles O35: the word that PM_STEP writes reads back as the Schrage result, which fits (R84). -/
theorem pmStepWritesTheSchrageResult : Obligations.PmStepWritesTheSchrageResult := by
  refine ⟨Encoding.decode_word rfl rfl, ?step, ?corners⟩
  case step => exact fun s => ⟨_, sint_bits_schrage1 s.width s.regs.pmX, exec_pmStep s rfl⟩
  case corners => decide

/-- Settles O32: the quotient and remainder of the hypotheses are those that the model divides out. -/
theorem schrageIsTheWrittenDecomposition : Obligations.SchrageIsTheWrittenDecomposition := by
  refine ⟨?decomposition, fun _ => rfl, fun _ => rfl⟩
  case decomposition =>
    intro a m q r x hi lo hq hx h₀ hlo
    obtain ⟨hquot, hrem⟩ := floorDiv_floorMod_of_decomposition hq hx h₀ hlo
    rw [schrage_eq, schrageDiff, hquot, hrem]

end Sys2Proof.Proofs.ParkMiller

/-! ## Proofs: LEC_STEP (42_lecuyer.md R86 to R88) -/

namespace Sys2Proof.Proofs.Lecuyer

open Sys2Proof Sys2Proof.Machine Sys2Proof.Config Sys2Proof.Proofs.Effects Sys2Proof.Proofs.ParkMiller

/-! ### The two streams -/

theorem lecNext1_eq (x : Int) : lecNext1 x = schrage1 (x % 2147483647) :=
  congrArg schrage1 (floorMod_eq (by decide))

theorem lecNext2_eq (x : Int) : lecNext2 x = schrage2 (x % 536870911) :=
  congrArg schrage2 (floorMod_eq (by decide))

/-- The fold puts the first stream's argument well inside the interval where Schrage set 1 is exact (R83, R88). -/
theorem lecNext1_eq_emod (x : Int) : lecNext1 x = (16807 * (x % 2147483647)) % 2147483647 := by
  have hlt : x % 2147483647 < 2147483647 := Int.emod_lt_of_pos x (by decide)
  rw [lecNext1_eq, schrage1_eq_emod (Int.emod_nonneg x (by decide)) (by omega)]

/-- The fold puts the second stream's argument in the interval where Schrage set 2 is exact (R83, R88). -/
theorem lecNext2_eq_emod (x : Int) : lecNext2 x = (48271 * (x % 536870911)) % 536870911 := by
  rw [lecNext2_eq, schrage2_eq_emod (Int.emod_nonneg x (by decide)) (Int.emod_lt_of_pos x (by decide))]

/-! ### The combination -/

theorem lecCombine_eq_emod (y₁ y₂ : Int) : lecCombine y₁ y₂ = (y₁ - y₂) % 2147483647 :=
  floorMod_eq (by decide)

/-- Where the difference lies in `(-m1, m1)` one conditional add realises the combination (R88). -/
theorem lecCombine_eq_ite {y₁ y₂ : Int} (hlow : -2147483647 < y₁ - y₂) (hhigh : y₁ - y₂ < 2147483647) :
    lecCombine y₁ y₂ = if y₂ ≤ y₁ then y₁ - y₂ else y₁ - y₂ + 2147483647 := by
  rw [lecCombine_eq_emod]
  split
  · next hle => exact Int.emod_eq_of_lt (by omega) hhigh
  · next hlt =>
    rw [← Int.add_emod_right]
    exact Int.emod_eq_of_lt (by omega) (by omega)

/-! ### The command -/

/-- LEC_STEP has no guard, so it succeeds in every state, and each register it writes holds its integer, the streams
in their ranges (R86). -/
theorem exec_lecStep (s : State) :
    ∃ y₁ y₂ z : Word s.W,
      (sint y₁ = lecNext1 (sint s.regs.lecX1) ∧ 0 ≤ sint y₁ ∧ sint y₁ < 2147483647) ∧
      (sint y₂ = lecNext2 (sint s.regs.lecX2) ∧ 0 ≤ sint y₂ ∧ sint y₂ < 536870911) ∧
      sint z = lecCombine (sint y₁) (sint y₂) ∧
      exec .lecStep s = .next (s.ended { s.regs with lecX1 := y₁, lecX2 := y₂, res := z } 0 z) := by
  have hrange₁ := lecNext1_range (sint s.regs.lecX1)
  have hrange₂ := lecNext2_range (sint s.regs.lecX2)
  have hrange := lecCombine_range (lecNext1 (sint s.regs.lecX1)) (lecNext2 (sint s.regs.lecX2))
  have hy₁ := sint_bits_small s.width (by omega) (hrange₁.2.trans (by decide))
  have hy₂ := sint_bits_small s.width (by omega) (hrange₂.2.trans (by decide))
  have hz := sint_bits_small s.width (by omega) (hrange.2.trans (by decide))
  have heffect : effectOf .lecStep s.din s.regs = .ok _ := rfl
  refine ⟨_, _, _, ⟨hy₁, ?_⟩, ⟨hy₂, ?_⟩, ?_, exec_ok heffect⟩
  · rwa [hy₁]
  · rwa [hy₂]
  · rwa [hy₁, hy₂]

/-! ### The obligations -/

/-- Settles O37: the fold is `lecNext1_eq` and `lecNext2_eq`, and the corner cases are evaluated. -/
theorem lecStepCombinesBothStreams : Obligations.LecStepCombinesBothStreams := by
  refine ⟨Encoding.decode_word rfl rfl, ?step, ?corners⟩
  case step =>
    intro s
    obtain ⟨y₁, y₂, z, ⟨hy₁, h₁, h₁'⟩, ⟨hy₂, h₂, h₂'⟩, hz, hexec⟩ := exec_lecStep s
    exact ⟨y₁, y₂, z, hy₁.trans (lecNext1_eq _), h₁, h₁', hy₂.trans (lecNext2_eq _), h₂, h₂',
      hz.trans (lecCombine_eq_emod _ _), hexec⟩
  case corners => decide

/-- Settles O38: the streams' ranges bound their difference by `m2` below and `m1` above, where the combination is one
conditional add. -/
theorem lecStepStreamsAreExact : Obligations.LecStepStreamsAreExact := by
  intro s
  obtain ⟨y₁, y₂, z, ⟨hy₁, h₁, h₁'⟩, ⟨hy₂, h₂, h₂'⟩, hz, hexec⟩ := exec_lecStep s
  have hlow : -536870911 < sint y₁ - sint y₂ := by omega
  have hhigh : sint y₁ - sint y₂ < 2147483647 := by omega
  have hrange := lecCombine_range (sint y₁) (sint y₂)
  rw [← hz] at hrange
  exact ⟨_, z, hexec, hy₁.trans (lecNext1_eq_emod _), hy₂.trans (lecNext2_eq_emod _), hlow, hhigh,
    hz.trans (lecCombine_eq_ite (by omega) hhigh), hrange⟩

end Sys2Proof.Proofs.Lecuyer

/-! ## Proofs: LCG_STEP (43_lcg.md R91, R92) -/

namespace Sys2Proof.Proofs.Lcg

open Sys2Proof Sys2Proof.Machine Sys2Proof.Config Sys2Proof.Proofs.Effects

/-! ### The residue -/

theorem lcgNext_eq_emod {a c m x : Int} (hm : 0 < m) : lcgNext a c m x = (a * x + c) % m :=
  floorMod_eq hm.le

/-- LCG_X takes the residue unwrapped: it is below the modulus, which is itself a register's value (R92). -/
theorem sint_bits_lcgNext {w : Width} (m : Word w.bits) (hm : 0 < sint m) (a c x : Int) :
    sint (bits w.bits (lcgNext a c (sint m) x)) = lcgNext a c (sint m) x := by
  obtain ⟨h₀, hlt⟩ := lcgNext_range (a := a) (c := c) (x := x) hm
  exact Engines.sint_bits_of_range m h₀ hlt

/-! ### The command, on each side of its guard -/

section Guard
variable {W : Nat} {r : Regs W}

theorem lcgStepEffect_of_pos (hm : 0 < sint r.lcgM) {v : Word W}
    (hv : v = bits W (lcgNext (sint r.lcgA) (sint r.lcgC) (sint r.lcgM) (sint r.lcgX))) :
    lcgStepEffect r = .ok ({ r with lcgX := v, res := v }, v) := by
  rw [hv]
  exact if_neg (not_le.mpr hm)

theorem lcgStepEffect_of_nonpos (hm : sint r.lcgM ≤ 0) : lcgStepEffect r = .error .lcgModulus :=
  if_pos hm

end Guard

/-- With a positive modulus LCG_STEP succeeds, and the word it writes reads back as the residue (R91, R92). -/
theorem exec_lcgStep_of_pos (s : State) (hm : 0 < sint s.regs.lcgM) :
    ∃ v : Word s.W,
      sint v = lcgNext (sint s.regs.lcgA) (sint s.regs.lcgC) (sint s.regs.lcgM) (sint s.regs.lcgX) ∧
      exec .lcgStep s = .next (s.ended { s.regs with lcgX := v, res := v } 0 v) :=
  ⟨_, sint_bits_lcgNext (w := s.width) s.regs.lcgM hm _ _ _,
    exec_ok (i := .lcgStep) (lcgStepEffect_of_pos hm rfl)⟩

theorem exec_lcgStep_of_nonpos (s : State) (hm : sint s.regs.lcgM ≤ 0) :
    exec .lcgStep s = .next (s.faulted 4) :=
  exec_error (i := .lcgStep) (lcgStepEffect_of_nonpos hm)

/-! ### The obligation -/

/-- Settles O40: the residue lies below the modulus, so the word written holds it exactly; without a positive modulus
the guard faults before anything is written. -/
theorem lcgStepWritesTheExactResidue : Obligations.LcgStepWritesTheExactResidue := by
  refine ⟨Encoding.decode_word rfl rfl, fun s => ⟨?success, exec_lcgStep_of_nonpos s⟩⟩
  case success =>
    intro hm
    obtain ⟨v, hv, hexec⟩ := exec_lcgStep_of_pos s hm
    have hrange : 0 ≤ sint v ∧ sint v < sint s.regs.lcgM := hv ▸ lcgNext_range hm
    exact ⟨v, hv.trans (lcgNext_eq_emod hm), hrange.1, hrange.2, hexec⟩

end Sys2Proof.Proofs.Lcg

/-! ## Proofs: the BBS quadratic-residue iterator (44_bbs.md R96 to R105) -/

namespace Sys2Proof.Proofs.Bbs

open Sys2Proof Sys2Proof.Machine Sys2Proof.Config Sys2Proof.Proofs.Effects Sys2Proof.Proofs.Invariant
  Sys2Proof.Proofs.Engines

/-! ### The arithmetic of the iterator -/

theorem bbsSquare_eq_emod {m : Int} (hm : 0 < m) : bbsSquare m = fun y => (y * y) % m :=
  funext fun _ => floorMod_eq hm.le

theorem bbsDrawLength_eq_emod (x : Int) : bbsDrawLength x = schrage1 x % 30 := floorMod_eq (by decide)

theorem bbsLowBit_eq_emod (x : Int) : bbsLowBit x = x % 2 := floorMod_eq (by decide)

/-- The loop of BBS_NEXT in closed form: the iterated squaring, and the low bits of the new states by place value
below the accumulator it started with (R101, R104). -/
theorem bbsCollect_eq (m : Int) (n : Nat) (x acc : Int) :
    bbsCollect m n x acc = ((bbsSquare m)^[n] x,
      acc * 2 ^ n + ∑ i ∈ Finset.range n, bbsLowBit ((bbsSquare m)^[i + 1] x) * 2 ^ (n - 1 - i)) := by
  induction n generalizing x acc with
  | zero => simp
  | succ n ih =>
    rw [bbsCollect_succ, ih, Finset.sum_range_succ']
    simp only [Function.iterate_succ_apply, Function.iterate_zero_apply, Nat.add_sub_cancel, Nat.sub_zero, Nat.sub_sub,
      Nat.add_comm 1]
    congr 1
    ring

/-- The state of the loop fits BBS_X: it is below the modulus, or the loop is empty and it is what was there. -/
theorem sint_bits_bbsCollect_state {w : Width} {m : Word w.bits} (hm : 0 < sint m) (n : Nat) (x : Word w.bits)
    (acc : Int) :
    sint (bits w.bits (bbsCollect (sint m) n (sint x) acc).1) = (bbsCollect (sint m) n (sint x) acc).1 := by
  cases n with
  | zero => rw [bbsCollect_zero, bits_sint]
  | succ n =>
    obtain ⟨h₀, hlt⟩ := bbsCollect_state_range_succ hm n (sint x) acc
    exact sint_bits_of_range m h₀ hlt

/-! ### A stream and its entries -/

section Streams
variable {α : Type} {next : α → α} {out : α → Int}

theorem length_streamOf (n : Nat) (x : α) : (streamOf next out n x).length = n := by
  induction n generalizing x with
  | zero => rfl
  | succ n ih => rw [streamOf, List.length_cons, ih]

theorem mem_streamOf {n : Nat} {x : α} {v : Int} (h : v ∈ streamOf next out n x) : ∃ y, v = out y := by
  induction n generalizing x with
  | zero => cases h
  | succ n ih =>
    obtain rfl | htail := List.mem_cons.mp h
    · exact ⟨_, rfl⟩
    · exact ih htail

theorem getElem?_streamOf {n i : Nat} (hi : i < n) (x : α) :
    (streamOf next out n x)[i]? = some (out (next^[i + 1] x)) := by
  induction n generalizing i x with
  | zero => omega
  | succ n ih =>
    cases i with
    | zero => rfl
    | succ i => rw [streamOf, List.getElem?_cons_succ, ih (by omega), Function.iterate_succ_apply _ (i + 1)]

end Streams

/-! ### Each command on each side of its guards -/

/-- BBS_ARMED is written and every other bit of STATUS is kept, at every legal width (R21, R23). -/
theorem setArmed_status_bit {w : Width} (r : Regs w.bits) (b : Bool) (k : Nat) :
    (r.setArmed b).status.getLsbD k = if k = 4 then b else r.status.getLsbD k := by
  rw [setArmed_getLsbD, decide_eq_true (Status.width_gt_four w), Bool.true_and]

section Guards
variable {W : Nat} {r : Regs W}

theorem bbsInitEffect_of_equal (h : sint r.bbsP = sint r.bbsQ) : bbsInitEffect r = .error .bbsEqualPrimes :=
  if_pos h

theorem bbsInitEffect_of_nonpos (hne : sint r.bbsP ≠ sint r.bbsQ) (h : sint r.bbsP * sint r.bbsQ ≤ 0) :
    bbsInitEffect r = .error .bbsModulus :=
  (if_neg hne).trans (if_pos h)

theorem bbsInitEffect_of_capacity (hne : sint r.bbsP ≠ sint r.bbsQ)
    (h : 2 ^ (W - 1) ≤ sint r.bbsP * sint r.bbsQ) : bbsInitEffect r = .error .bbsCapacity := by
  have hpos : ¬ sint r.bbsP * sint r.bbsQ ≤ 0 := not_le.mpr (lt_of_lt_of_le (by positivity) h)
  exact (if_neg hne).trans ((if_neg hpos).trans (if_pos (by push_cast; exact h)))

theorem bbsInitEffect_of_fits (hne : sint r.bbsP ≠ sint r.bbsQ) (hpos : 0 < sint r.bbsP * sint r.bbsQ)
    (hcap : sint r.bbsP * sint r.bbsQ < 2 ^ (W - 1)) :
    bbsInitEffect r = .ok
      ({ r with
          bbsM := bits W (sint r.bbsP * sint r.bbsQ),
          bbsX := bits W (bbsSquare (sint r.bbsP * sint r.bbsQ) (sint r.bbsX)),
          bbsAcc := 0#W, bbsCnt := 0#W, bbsLen := 0#W }.setArmed false, 0#W) := by
  have hcap' : ¬ sint r.bbsP * sint r.bbsQ ≥ ((2 ^ (W - 1) : Nat) : Int) := by push_cast; exact not_le.mpr hcap
  refine (if_neg hne).trans ((if_neg (not_le.mpr hpos)).trans ((if_neg hcap').trans ?_))
  rw [bits_zero]

theorem bbsDrawEffect_of_nonpos (h : sint r.bbsM ≤ 0) : bbsDrawEffect r = .error .bbsNotConfigured := if_pos h

theorem bbsDrawEffect_of_armed (hm : 0 < sint r.bbsM) (h : r.armed = true) :
    bbsDrawEffect r = .error .bbsSequence :=
  (if_neg (not_le.mpr hm)).trans (if_pos h)

/-- The number of bits that a successful BBS_DRAW or BBS_NEXT draws (R97, R104). -/
def drawnLength (r : Regs W) : Nat := (bbsDrawLength (sint r.bbsX)).toNat

theorem natCast_drawnLength (r : Regs W) : (drawnLength r : Int) = bbsDrawLength (sint r.bbsX) :=
  Int.toNat_of_nonneg (bbsDrawLength_range _).1

theorem drawnLength_le (r : Regs W) : drawnLength r ≤ 29 := by
  have hrange := bbsDrawLength_range (sint r.bbsX)
  have hcast := natCast_drawnLength r
  omega

/-- The registers that a successful BBS_DRAW leaves (R97). -/
def drawn (r : Regs W) : Regs W :=
  { r with
    bbsLen := bits W (bbsDrawLength (sint r.bbsX)), bbsCnt := bits W (bbsDrawLength (sint r.bbsX)),
    bbsAcc := 0#W }.setArmed true

theorem bbsDrawEffect_of_idle (hm : 0 < sint r.bbsM) (h : r.armed = false) :
    bbsDrawEffect r = .ok (drawn r, bits W (bbsDrawLength (sint r.bbsX))) := by
  rw [drawn, ← bits_zero]
  exact (if_neg (not_le.mpr hm)).trans (if_neg (Bool.eq_false_iff.mp h))

theorem bbsBitEffect_of_nonpos (h : sint r.bbsM ≤ 0) : bbsBitEffect r = .error .bbsNotConfigured := if_pos h

theorem bbsBitEffect_of_sequence (hm : 0 < sint r.bbsM) (h : r.armed = false ∨ sint r.bbsCnt = 0) :
    bbsBitEffect r = .error .bbsSequence :=
  (if_neg (not_le.mpr hm)).trans (if_pos h)

theorem bbsEmitEffect_of_sequence (h : r.armed = false ∨ sint r.bbsCnt ≠ 0) :
    bbsEmitEffect r = .error .bbsSequence :=
  if_pos h

theorem bbsEmitEffect_of_full (harmed : r.armed = true) (hcnt : sint r.bbsCnt = 0) :
    bbsEmitEffect r = .ok ({ r with res := r.bbsAcc, bbsAcc := 0#W }.setArmed false, r.bbsAcc) := by
  have hseq : ¬ (r.armed = false ∨ sint r.bbsCnt ≠ 0) := by simp [harmed, hcnt]
  have heffect : bbsEmitEffect r = .ok
      ({ r with res := bits W (sint r.bbsAcc), bbsAcc := bits W 0 }.setArmed false, bits W (sint r.bbsAcc)) :=
    if_neg hseq
  rwa [bits_sint, bits_zero] at heffect

theorem bbsNextEffect_of_nonpos (h : sint r.bbsM ≤ 0) : bbsNextEffect r = .error .bbsNotConfigured := if_pos h

theorem bbsNextEffect_of_armed (hm : 0 < sint r.bbsM) (h : r.armed = true) :
    bbsNextEffect r = .error .bbsSequence :=
  (if_neg (not_le.mpr hm)).trans (if_pos h)

/-- The last state and the value that one BBS_NEXT computes: `bbsValue` of the registers (R104, R112). -/
def nextValue (r : Regs W) : Int × Int := bbsValue (sint r.bbsM) (sint r.bbsX)

/-- The registers that a successful BBS_NEXT leaves (R104). -/
def afterNext (r : Regs W) : Regs W :=
  { r with
    bbsX := bits W (nextValue r).1, bbsLen := bits W (bbsDrawLength (sint r.bbsX)), bbsCnt := 0#W,
    bbsAcc := 0#W, res := bits W (nextValue r).2 }

theorem bbsNextEffect_of_idle (hm : 0 < sint r.bbsM) (h : r.armed = false) :
    bbsNextEffect r = .ok (afterNext r, bits W (nextValue r).2) := by
  rw [afterNext, ← bits_zero]
  exact (if_neg (not_le.mpr hm)).trans (if_neg (Bool.eq_false_iff.mp h))

end Guards

/-! ### Collecting bits -/

section Collecting
variable {W : Nat}

/-- The iterator has `n` bits still to generate, and BBS_ACC is small enough to take them (R35, R100). Unlike the
invariant of R38 it says nothing of BBS_LEN and ERR, which BBS_BIT does not read. -/
structure Collecting (r : Regs W) (n : Nat) : Prop where
  configured : 0 < sint r.bbsM
  armed : r.armed = true
  count : sint r.bbsCnt = n
  acc_nonneg : 0 ≤ sint r.bbsAcc
  room : (sint r.bbsAcc + 1) * 2 ^ n ≤ 2 ^ 29

/-- The last state and the accumulator after `n` BBS_BITs. -/
def collect (r : Regs W) (n : Nat) : Int × Int := bbsCollect (sint r.bbsM) n (sint r.bbsX) (sint r.bbsAcc)

/-- The registers that `n` BBS_BITs leave (R100). -/
def collected (r : Regs W) (n : Nat) : Regs W :=
  { r with
    bbsX := bits W (collect r n).1, bbsAcc := bits W (collect r n).2, bbsCnt := bits W (sint r.bbsCnt - n) }

/-- The words that `n` BBS_BITs return (R100). -/
def collectedBits (r : Regs W) (n : Nat) : List (Word W) :=
  (streamOf (bbsSquare (sint r.bbsM)) bbsLowBit n (sint r.bbsX)).map (bits W)

theorem collecting_of_inv {r : Regs W} {n : Nat} (h : r.Inv) (harmed : r.armed = true) (hcnt : sint r.bbsCnt = n) :
    Collecting r n where
  configured := h.configured harmed
  armed := harmed
  count := hcnt
  acc_nonneg := h.accumulator.1
  room := by
    obtain ⟨hc₀, hcl, hl⟩ := h.counts
    have hexp : (sint r.bbsLen - sint r.bbsCnt).toNat + n = (sint r.bbsLen).toNat := by omega
    calc (sint r.bbsAcc + 1) * 2 ^ n
        ≤ 2 ^ (sint r.bbsLen - sint r.bbsCnt).toNat * 2 ^ n :=
          mul_le_mul_of_nonneg_right h.accumulator.2 (by positivity)
      _ = 2 ^ (sint r.bbsLen).toNat := by rw [← pow_add, hexp]
      _ ≤ 2 ^ 29 := two_pow_le_of_le_29 (by omega)

theorem armed_collected (r : Regs W) (n : Nat) : (collected r n).armed = r.armed := rfl

theorem collected_zero (r : Regs W) : collected r 0 = r := by
  simp [collected, collect]

end Collecting

section Bits
variable {w : Width} {r : Regs w.bits} {n : Nat}

theorem collecting_drawn (hm : 0 < sint r.bbsM) : Collecting (drawn r) (drawnLength r) where
  configured := hm
  armed := armed_setArmed _ (Status.width_gt_four w) true
  count := (sint_bits_drawLength w _).trans (natCast_drawnLength r).symm
  acc_nonneg := (sint_zero w.bits).ge
  room := by simpa [drawn] using two_pow_le_of_le_29 (drawnLength_le r)

/-- The accumulator leaves room for the `n` bits that are still to come after `k` more (R35). -/
theorem collect_acc_range {k : Nat} (h : Collecting r (n + k)) :
    0 ≤ (collect r k).2 ∧ ((collect r k).2 + 1) * 2 ^ n ≤ 2 ^ 29 := by
  obtain ⟨hlow, hhigh⟩ := bbsCollect_acc_range (sint r.bbsM) k (sint r.bbsX) (sint r.bbsAcc) h.acc_nonneg
  refine ⟨(mul_nonneg h.acc_nonneg (by positivity)).trans hlow, ?_⟩
  calc ((collect r k).2 + 1) * 2 ^ n
      ≤ ((sint r.bbsAcc + 1) * 2 ^ k) * 2 ^ n := mul_le_mul_of_nonneg_right hhigh (by positivity)
    _ = (sint r.bbsAcc + 1) * 2 ^ (n + k) := by ring
    _ ≤ 2 ^ 29 := h.room

theorem sint_collected_bbsX (h : Collecting r n) (k : Nat) : sint (collected r k).bbsX = (collect r k).1 :=
  sint_bits_bbsCollect_state h.configured k r.bbsX (sint r.bbsAcc)

theorem sint_collected_bbsAcc {k : Nat} (h : Collecting r (n + k)) :
    sint (collected r k).bbsAcc = (collect r k).2 := by
  obtain ⟨h₀, hroom⟩ := collect_acc_range h
  have hpow : (1 : Int) ≤ 2 ^ n := one_le_pow₀ (by norm_num)
  exact sint_bits_small w (by omega) (by nlinarith)

theorem sint_collected_bbsCnt {k : Nat} (h : Collecting r (n + k)) : sint (collected r k).bbsCnt = n := by
  have hcnt : sint r.bbsCnt - k = n := by rw [h.count]; push_cast; ring
  have hlt := sint_lt r.bbsCnt
  exact (sint_bits_of_nonneg (by omega) (by omega)).trans hcnt

theorem collecting_collected {k : Nat} (h : Collecting r (n + k)) : Collecting (collected r k) n where
  configured := h.configured
  armed := (armed_collected r k).trans h.armed
  count := sint_collected_bbsCnt h
  acc_nonneg := by rw [sint_collected_bbsAcc h]; exact (collect_acc_range h).1
  room := by rw [sint_collected_bbsAcc h]; exact (collect_acc_range h).2

/-- After all its bits the count is 0 and the accumulator holds what the loop answers. -/
theorem collected_all (h : Collecting r n) :
    sint (collected r n).bbsCnt = 0 ∧ sint (collected r n).bbsAcc = (collect r n).2 := by
  have h' : Collecting r (0 + n) := by rwa [Nat.zero_add]
  exact ⟨sint_collected_bbsCnt h', sint_collected_bbsAcc h'⟩

/-- One bit and then `n` are `n + 1` bits: the loop's step is taken on the registers, which hold its integers. -/
theorem collected_succ (h : Collecting r (n + 1)) : collected r (n + 1) = collected (collected r 1) n := by
  have hcollect : collect (collected r 1) n = collect r (n + 1) := by
    rw [collect, sint_collected_bbsX h, sint_collected_bbsAcc h]
    rfl
  have hcnt : sint r.bbsCnt - (n + 1 : Nat) = sint (collected r 1).bbsCnt - n := by
    rw [sint_collected_bbsCnt h, h.count, sub_self, sub_self]
  rw [collected, collected, hcollect, hcnt]
  rfl

theorem collectedBits_succ (h : Collecting r (n + 1)) :
    collectedBits r (n + 1) = bits w.bits (bbsLowBit (collect r 1).1) :: collectedBits (collected r 1) n := by
  rw [collectedBits, collectedBits, sint_collected_bbsX h]
  rfl

/-- BBS_BIT succeeds while a bit is still to come, and squares, shifts in and counts down (R100). -/
theorem bbsBitEffect_of_collecting (h : Collecting r (n + 1)) :
    bbsBitEffect r = .ok (collected r 1, bits w.bits (bbsLowBit (collect r 1).1)) := by
  have hcnt : sint r.bbsCnt ≠ 0 := by rw [h.count]; exact Nat.cast_ne_zero.mpr (Nat.succ_ne_zero n)
  have hseq : ¬ (r.armed = false ∨ sint r.bbsCnt = 0) := by simp [h.armed, hcnt]
  exact (if_neg (not_le.mpr h.configured)).trans (if_neg hseq)

theorem sint_bits_bbsLowBit (w : Width) (x : Int) : sint (bits w.bits (bbsLowBit x)) = bbsLowBit x := by
  have hbit := bbsLowBit_cases x
  exact sint_bits_small w (by omega) (by omega)

end Bits

/-! ### Runs of the iterator's commands -/

theorem runTransactions_cons_ok {W : Nat} {cmd : CmdWord} {i : Instr} {d : Word W} {r : Regs W} {x : Regs W × Word W}
    (hd : decode cmd = .ok i) (h : effectOf i d r = .ok x) (cs : List (CmdWord × Word W)) :
    runTransactions ((cmd, d) :: cs) r =
      ((runTransactions cs x.1).1, ⟨0, x.2⟩ :: (runTransactions cs x.1).2) := by
  rw [runTransactions, wordEffect_of_decode hd, h]
  rfl

theorem decode_bbsDraw : decode 0x54000000 = .ok .bbsDraw := Encoding.decode_word rfl rfl

theorem decode_bbsBit : decode 0x58000000 = .ok .bbsBit := Encoding.decode_word rfl rfl

theorem decode_bbsEmit : decode 0x5C000000 = .ok .bbsEmit := Encoding.decode_word rfl rfl

section Runs
variable {w : Width} {r : Regs w.bits} {n : Nat}

/-- While bits are still to come, that many BBS_BITs all succeed and collect them (R100, R101). -/
theorem runTransactions_bits (h : Collecting r n) (d : Word w.bits) :
    runTransactions (List.replicate n (0x58000000, d)) r =
      (collected r n, (collectedBits r n).map fun b => ⟨0, b⟩) := by
  induction n generalizing r with
  | zero => rw [collected_zero]; rfl
  | succ n ih =>
    rw [List.replicate_succ, runTransactions_cons_ok decode_bbsBit (bbsBitEffect_of_collecting h),
      ih (collecting_collected h), collected_succ h, collectedBits_succ h, List.map_cons]

theorem length_collectedBits (r : Regs w.bits) (n : Nat) : (collectedBits r n).length = n := by
  rw [collectedBits, List.length_map, length_streamOf]

theorem sint_of_mem_collectedBits {b : Word w.bits} (h : b ∈ collectedBits r n) : sint b = 0 ∨ sint b = 1 := by
  obtain ⟨v, hv, rfl⟩ := List.mem_map.mp h
  obtain ⟨y, rfl⟩ := mem_streamOf hv
  rw [sint_bits_bbsLowBit]
  exact bbsLowBit_cases y

theorem sint_collectedBits_getD (r : Regs w.bits) {i : Nat} (hi : i < n) :
    sint ((collectedBits r n).getD i 0) = bbsLowBit ((bbsSquare (sint r.bbsM))^[i + 1] (sint r.bbsX)) := by
  rw [List.getD_eq_getElem?_getD, collectedBits, List.getElem?_map, getElem?_streamOf hi, Option.map_some,
    Option.getD_some, sint_bits_bbsLowBit]

/-- From an empty accumulator the bits returned are the accumulator's binary digits, the first most significant
(R101). -/
theorem collect_acc_eq_sum (hacc : sint r.bbsAcc = 0) (n : Nat) :
    (collect r n).2 = ∑ i ∈ Finset.range n, sint ((collectedBits r n).getD i 0) * 2 ^ (n - 1 - i) := by
  rw [collect, bbsCollect_eq]
  simp only [hacc, zero_mul, zero_add]
  refine Finset.sum_congr rfl fun i hi => ?_
  rw [sint_collectedBits_getD r (Finset.mem_range.mp hi)]

end Runs

/-! ### BBS_NEXT and its parts -/

section Next
variable {w : Width} {r : Regs w.bits}

/-- The value that BBS_NEXT computes, as R104 writes it. -/
theorem nextValue_eq (hm : 0 < sint r.bbsM) :
    nextValue r = ((fun y : Int => (y * y) % sint r.bbsM)^[drawnLength r] (sint r.bbsX),
      ∑ i ∈ Finset.range (drawnLength r),
        ((fun y : Int => (y * y) % sint r.bbsM)^[i + 1] (sint r.bbsX) % 2) * 2 ^ (drawnLength r - 1 - i)) := by
  rw [nextValue, bbsValue, bbsCollect_eq, zero_mul, zero_add, bbsSquare_eq_emod hm, ← drawnLength]
  simp only [bbsLowBit_eq_emod]

theorem sint_bits_nextValue_state (hm : 0 < sint r.bbsM) :
    sint (bits w.bits (nextValue r).1) = (nextValue r).1 :=
  sint_bits_bbsCollect_state hm _ r.bbsX 0

theorem sint_bits_nextValue_out (r : Regs w.bits) : sint (bits w.bits (nextValue r).2) = (nextValue r).2 := by
  obtain ⟨h₀, hlt⟩ := bbsCollect_drawn_range (sint r.bbsM) (sint r.bbsX)
  exact sint_bits_small w (by rw [nextValue, bbsValue]; omega) (hlt.trans (by norm_num))

/-- The bits collected after a draw are those BBS_NEXT collects (R105). -/
theorem collect_drawn (r : Regs w.bits) : collect (drawn r) (drawnLength r) = nextValue r :=
  congrArg (bbsCollect _ _ _) (sint_zero w.bits)

/-- BBS_DRAW sets BBS_ARMED and BBS_EMIT clears it again, so STATUS ends as it was (R105). -/
theorem setArmed_true_false_status (harmed : r.armed = false) :
    ((r.setArmed true).setArmed false).status = r.status := by
  apply BitVec.eq_of_getLsbD_eq
  intro k _
  rw [setArmed_status_bit, setArmed_status_bit]
  split
  · next hk => rw [hk]; exact harmed.symm
  · rfl

/-- After the draw and its bits, BBS_EMIT leaves the registers that BBS_NEXT leaves (R105). -/
theorem bbsEmitEffect_collected_drawn (hm : 0 < sint r.bbsM) (harmed : r.armed = false) :
    bbsEmitEffect (collected (drawn r) (drawnLength r)) =
      .ok (afterNext r, bits w.bits (nextValue r).2) := by
  have hdrawn : Collecting (drawn r) (drawnLength r) := collecting_drawn hm
  have hset := (armed_collected (drawn r) (drawnLength r)).trans hdrawn.armed
  obtain ⟨hcnt, -⟩ := collected_all hdrawn
  have hzero : (collected (drawn r) (drawnLength r)).bbsCnt = 0#w.bits := sint_inj (hcnt.trans (sint_zero _).symm)
  rw [bbsEmitEffect_of_full hset hcnt, afterNext, ← collect_drawn, ← setArmed_true_false_status harmed, ← hzero]
  rfl

/-- The commands whose composition R105 claims BBS_NEXT to be, with `n` BBS_BITs. -/
def nextParts {W : Nat} (n : Nat) (d : Word W) : List (CmdWord × Word W) :=
  (0x54000000, d) :: (List.replicate n (0x58000000, d) ++ [(0x5C000000, d)])

/-- In state IDLE with a positive modulus, BBS_DRAW, as many BBS_BITs as it draws and BBS_EMIT all succeed, and leave
and return at the end what BBS_NEXT does (R105). -/
theorem runTransactions_nextParts (hm : 0 < sint r.bbsM) (harmed : r.armed = false) (d : Word w.bits) :
    runTransactions (nextParts (drawnLength r) d) r =
      (afterNext r,
        ⟨0, (afterNext r).bbsLen⟩ ::
          ((collectedBits (drawn r) (drawnLength r)).map (fun b => ⟨0, b⟩) ++
            [⟨0, bits w.bits (nextValue r).2⟩])) := by
  rw [nextParts, runTransactions_cons_ok decode_bbsDraw (bbsDrawEffect_of_idle hm harmed), runTransactions_append,
    runTransactions_bits (collecting_drawn hm),
    runTransactions_cons_ok decode_bbsEmit (bbsEmitEffect_collected_drawn hm harmed), runTransactions_nil]
  rfl

end Next

/-! ### The obligations -/

/-- Settles O42: the guards are taken in the rule's order; past them the modulus fits a register, and so does the
square below it. -/
theorem bbsInitStoresTheModulusAndSquaresTheSeed : Obligations.BbsInitStoresTheModulusAndSquaresTheSeed := by
  refine ⟨Encoding.decode_word rfl rfl, fun s => ⟨?equal, ?nonpos, ?capacity, ?fits⟩⟩
  case equal => exact fun h => exec_error (i := .bbsInit) (f := .bbsEqualPrimes) (bbsInitEffect_of_equal h)
  case nonpos => exact fun hne h => exec_error (i := .bbsInit) (f := .bbsModulus) (bbsInitEffect_of_nonpos hne h)
  case capacity => exact fun hne h => exec_error (i := .bbsInit) (f := .bbsCapacity) (bbsInitEffect_of_capacity hne h)
  case fits =>
    intro hne hpos hcap
    have heffect := bbsInitEffect_of_fits hne hpos hcap
    have hm := sint_bits_of_nonneg hpos.le hcap
    obtain ⟨h₀, hlt⟩ := bbsSquare_range (x := sint s.regs.bbsX) hpos
    have hx := sint_bits_of_nonneg h₀ (hlt.trans hcap)
    refine ⟨_, _, _, hm, ?_, setArmed_status_bit s.regs false, exec_ok (i := .bbsInit) heffect⟩
    rw [hx, hm, bbsSquare_eq_emod hpos]

/-- Settles O43: the drawn length is in `[0, 30)`, so it is read back from BBS_LEN as drawn. -/
theorem bbsDrawDrawsTheLength : Obligations.BbsDrawDrawsTheLength := by
  refine ⟨decode_bbsDraw, fun s => ⟨?unconfigured, ?armed, ?idle⟩, ?draws⟩
  case unconfigured => exact fun hm => exec_error (i := .bbsDraw) (f := .bbsNotConfigured) (bbsDrawEffect_of_nonpos hm)
  case armed => exact fun hm h => exec_error (i := .bbsDraw) (f := .bbsSequence) (bbsDrawEffect_of_armed hm h)
  case idle =>
    intro hm h
    have hlen := sint_bits_drawLength s.width (sint s.regs.bbsX)
    obtain ⟨hlen₀, hlen₁⟩ := bbsDrawLength_range (sint s.regs.bbsX)
    exact ⟨_, _, hlen.trans (bbsDrawLength_eq_emod _), by omega, by omega, setArmed_status_bit s.regs true,
      exec_ok (i := .bbsDraw) (bbsDrawEffect_of_idle hm h)⟩
  case draws => decide

/-- Settles O44: under the invariant the iterator is collecting, so the square, the shifted accumulator and the count
are read back as computed. -/
theorem bbsBitSquaresAndShiftsInTheLowBit : Obligations.BbsBitSquaresAndShiftsInTheLowBit := by
  refine ⟨decode_bbsBit, fun s => ⟨?unconfigured, ?sequence, ?collecting⟩⟩
  case unconfigured => exact fun hm => exec_error (i := .bbsBit) (f := .bbsNotConfigured) (bbsBitEffect_of_nonpos hm)
  case sequence => exact fun hm h => exec_error (i := .bbsBit) (f := .bbsSequence) (bbsBitEffect_of_sequence hm h)
  case collecting =>
    intro hinv harmed hne
    obtain ⟨n, hn⟩ : ∃ n : Nat, sint s.regs.bbsCnt = (n + 1 : Nat) :=
      ⟨(sint s.regs.bbsCnt).toNat - 1, by have := hinv.counts.1; omega⟩
    have hcol := collecting_of_inv hinv harmed hn
    have hx := sint_collected_bbsX hcol 1
    have hb := sint_bits_bbsLowBit s.width (collect s.regs 1).1
    refine ⟨(collected s.regs 1).bbsX, (collected s.regs 1).bbsAcc, (collected s.regs 1).bbsCnt, _, ?_, ?_, ?_, ?_,
      exec_ok (i := .bbsBit) (bbsBitEffect_of_collecting hcol)⟩
    · rw [hx, ← congrFun (bbsSquare_eq_emod hcol.configured)]
      rfl
    · rw [hb, hx, bbsLowBit_eq_emod]
    · rw [hb]
      exact sint_collected_bbsAcc hcol
    · rw [sint_collected_bbsCnt hcol, hn]
      push_cast
      ring

/-- Settles O45: under the invariant the iterator is collecting, and its bits are read off the run. -/
theorem firstBitIsTheMostSignificant : Obligations.FirstBitIsTheMostSignificant := by
  intro s L d rest htodo hinv harmed hcnt hacc
  have hcol := collecting_of_inv hinv harmed hcnt
  obtain ⟨hcntEnd, haccEnd⟩ := collected_all hcol
  have hrun := runs_transactions s (List.replicate L (0x58000000, d)) rest (by rw [htodo, List.map_replicate])
  rw [List.length_replicate, runTransactions_bits hcol] at hrun
  exact ⟨_, _, hrun, length_collectedBits s.regs L, fun b hb => sint_of_mem_collectedBits hb, hcntEnd,
    haccEnd.trans (collect_acc_eq_sum hacc L)⟩

/-- Settles O46: the accumulator, being a register's pattern, goes to RES and `dout` as it is. -/
theorem bbsEmitOutputsTheAccumulator : Obligations.BbsEmitOutputsTheAccumulator := by
  refine ⟨decode_bbsEmit, fun s => ⟨?sequence, ?full⟩⟩
  case sequence => exact fun h => exec_error (i := .bbsEmit) (f := .bbsSequence) (bbsEmitEffect_of_sequence h)
  case full =>
    exact fun harmed hcnt => ⟨_, setArmed_status_bit s.regs false,
      exec_ok (i := .bbsEmit) (bbsEmitEffect_of_full harmed hcnt)⟩

/-- Settles O47: the loop in closed form, whose state and value both fit a register. -/
theorem bbsNextOutputsOneWholeValue : Obligations.BbsNextOutputsOneWholeValue := by
  refine ⟨Encoding.decode_word rfl rfl, fun s => ⟨?unconfigured, ?armed, ?idle⟩⟩
  case unconfigured => exact fun hm => exec_error (i := .bbsNext) (f := .bbsNotConfigured) (bbsNextEffect_of_nonpos hm)
  case armed => exact fun hm h => exec_error (i := .bbsNext) (f := .bbsSequence) (bbsNextEffect_of_armed hm h)
  case idle =>
    intro hm h
    have hL := natCast_drawnLength s.regs
    have hlen := sint_bits_drawLength s.width (sint s.regs.bbsX)
    have hvalue := nextValue_eq hm
    refine ⟨drawnLength s.regs, _, _, _, hL.trans (bbsDrawLength_eq_emod _), hlen.trans hL.symm,
      drawnLength_le s.regs, ?_, ?_, exec_ok (i := .bbsNext) (bbsNextEffect_of_idle hm h)⟩
    · rw [sint_bits_nextValue_state hm, hvalue]
    · rw [sint_bits_nextValue_out, hvalue]

/-- Settles O48: the three parts are run on the registers, and BBS_EMIT leaves what BBS_NEXT leaves. -/
theorem bbsNextIsTheCompositionOfItsParts : Obligations.BbsNextIsTheCompositionOfItsParts := by
  intro s hm harmed
  refine ⟨afterNext s.regs, _, exec_ok (i := .bbsNext) (bbsNextEffect_of_idle hm harmed), ?_⟩
  intro L d rest hL htodo
  have hlen : L = drawnLength s.regs := by
    have hdrawn := sint_bits_drawLength s.width (sint s.regs.bbsX)
    exact Int.ofNat.inj ((hL.trans hdrawn).trans (natCast_drawnLength s.regs).symm)
  have hrun := runs_transactions s (nextParts L d) rest (by rw [htodo]; simp [nextParts])
  rw [hlen, runTransactions_nextParts hm harmed, ← hlen] at hrun
  refine ⟨collectedBits (drawn s.regs) L, length_collectedBits _ _, ?_⟩
  simpa [nextParts] using hrun

end Sys2Proof.Proofs.Bbs

/-! ## Proofs: the call-level contracts (45_sequence_contracts.md R109 to R112, R115) -/

namespace Sys2Proof.Proofs.Calls

open Sys2Proof Sys2Proof.Machine Sys2Proof.Config Sys2Proof.Proofs.Effects Sys2Proof.Proofs.Bbs

/-! ### The writes that set a call up -/

section Writes
variable {W : Nat}

/-- The command word of WR of a register (R60, R63). -/
def wrWord (n : RegName) : CmdWord := encode (.wr n.index)

theorem decode_wrWord (n : RegName) : decode (wrWord n) = .ok (.wr n.index) :=
  Encoding.decode_encode (by cases n <;> rfl)

/-- The words of WR as the calls' statements write them out. -/
theorem wrWord_eq :
    wrWord .pmX = 0x08800000 ∧ wrWord .lecX1 = 0x08A00000 ∧ wrWord .lecX2 = 0x08C00000 ∧
    wrWord .lcgA = 0x08E00000 ∧ wrWord .lcgC = 0x09000000 ∧ wrWord .lcgM = 0x09200000 ∧
    wrWord .lcgX = 0x09400000 ∧ wrWord .bbsP = 0x09600000 ∧ wrWord .bbsQ = 0x09800000 ∧
    wrWord .bbsX = 0x09A00000 := by decide

/-- The transactions that write these registers, in order (R78). -/
def writes (l : List (RegName × Word W)) : List (CmdWord × Word W) := l.map fun e => (wrWord e.1, e.2)

@[simp] theorem writes_nil : writes ([] : List (RegName × Word W)) = [] := rfl

@[simp] theorem writes_cons (n : RegName) (v : Word W) (l : List (RegName × Word W)) :
    writes ((n, v) :: l) = (wrWord n, v) :: writes l := rfl

/-- The registers that those transactions leave, where all the registers are RW (R78). -/
def written (r : Regs W) (l : List (RegName × Word W)) : Regs W :=
  l.foldl (fun q e => q.write e.1 e.2) r

theorem wrEffect_index {n : RegName} (hrw : n.readOnly = false) (d : Word W) (r : Regs W) :
    wrEffect n.index d r = .ok (r.write n d, 0) := by
  simp [wrEffect, HostAccess.ofIndex_index, hrw]

theorem runTransactions_writes {l : List (RegName × Word W)} (hrw : ∀ e ∈ l, e.1.readOnly = false) (r : Regs W) :
    runTransactions (writes l) r = (written r l, l.map fun _ => ⟨0, 0⟩) := by
  induction l generalizing r with
  | nil => rfl
  | cons e l ih =>
    obtain ⟨he, hl⟩ := List.forall_mem_cons.mp hrw
    rw [writes_cons, runTransactions_cons_ok (decode_wrWord e.1) (wrEffect_index he e.2 r), ih hl]
    rfl

/-- A call: the writes that set it up, then the transactions `cs`, run on the registers written. -/
theorem runs_call {s : State} {l : List (RegName × Word s.W)} {cs : List (CmdWord × Word s.W)}
    {rest : List (HostMove s.W)} {r : Regs s.W} {rs : List (Response s.W)}
    (hrw : ∀ e ∈ l, e.1.readOnly = false)
    (htodo : s.todo = (writes l ++ cs).map (fun c => .transaction c.1 c.2) ++ rest)
    (hcs : runTransactions cs (written s.regs l) = (r, rs)) :
    Runs (cs.length + l.length) s (s.ranTo r rest ((l.map fun _ => ⟨0, 0⟩) ++ rs)) := by
  have hrun := runs_transactions s (writes l ++ cs) rest htodo
  rwa [List.length_append, writes, List.length_map, Nat.add_comm, ← writes, runTransactions_append,
    runTransactions_writes hrw, hcs] at hrun

/-- A call whose writes are followed by one command, issued `n` times. -/
theorem runs_repeat {s : State} {l : List (RegName × Word s.W)} {cmd : CmdWord} {n : Nat} {d : Word s.W}
    {rest : List (HostMove s.W)} {r : Regs s.W} {rs : List (Response s.W)}
    (hrw : ∀ e ∈ l, e.1.readOnly = false)
    (htodo : s.todo = (writes l).map (fun c => .transaction c.1 c.2) ++ List.replicate n (.transaction cmd d) ++ rest)
    (hcs : runTransactions (List.replicate n (cmd, d)) (written s.regs l) = (r, rs)) :
    Runs (n + l.length) s (s.ranTo r rest ((l.map fun _ => ⟨0, 0⟩) ++ rs)) := by
  have hrun := runs_call (rest := rest) hrw (by rw [htodo, List.map_append, List.map_replicate]) hcs
  rwa [List.length_replicate] at hrun

end Writes

/-! ### A repeated command as a stream of output values -/

section Streams
variable {W : Nat} {α : Type} {i : Instr} {Holds : Regs W → α → Prop} {next : α → α} {out : α → Int}

/-- From registers that hold the stream's state, the command succeeds, leaves registers that hold the next state, and
returns that state's output. -/
def Produces (i : Instr) (Holds : Regs W → α → Prop) (next : α → α) (out : α → Int) : Prop :=
  ∀ (d : Word W) (r : Regs W) (x : α), Holds r x →
    ∃ (r' : Regs W) (v : Word W), effectOf i d r = .ok (r', v) ∧ Holds r' (next x) ∧ sint v = out (next x)

/-- A command that produces a stream, repeated, returns that many of its values, leaves the state after them, and
keeps the last one in RES (R25). -/
theorem Produces.runTransactions {cmd : CmdWord} (h : Produces i Holds next out) (hd : decode cmd = .ok i)
    (hi : i ∈ writtenBy .res) (n : Nat) (d : Word W) {r : Regs W} {x : α} (hr : Holds r x) :
    ∃ (r' : Regs W) (vs : List (Word W)),
      runTransactions (List.replicate n (cmd, d)) r = (r', vs.map fun v => ⟨0, v⟩) ∧
      vs.map sint = streamOf next out n x ∧ Holds r' (next^[n] x) ∧ r'.res = vs.getLast?.getD r.res := by
  induction n generalizing r x with
  | zero => exact ⟨r, [], rfl, rfl, hr, rfl⟩
  | succ n ih =>
    obtain ⟨r₁, v, heffect, hr₁, hv⟩ := h d r x hr
    obtain ⟨r', vs, hrun, hvs, hr', hres⟩ := ih hr₁
    have hres₁ : r₁.res = v := Status.effectOf_output heffect hi
    refine ⟨r', v :: vs, ?_, ?_, hr', ?_⟩
    · rw [List.replicate_succ, runTransactions_cons_ok hd heffect, hrun, List.map_cons]
    · rw [List.map_cons, hv, hvs, streamOf]
    · rw [List.getLast?_cons, Option.getD_some, hres, hres₁]

/-- A stream that outputs its states ends in its last state. -/
theorem getLast?_streamOf_id (next : Int → Int) (n : Nat) (x : Int) :
    (streamOf next id n x).getLast?.getD x = next^[n] x := by
  induction n generalizing x with
  | zero => rfl
  | succ n ih => rw [streamOf, List.getLast?_cons, Option.getD_some, id_eq, ih, Function.iterate_succ_apply]

theorem length_of_map_sint {vs : List (Word W)} {n : Nat} {x : α} (h : vs.map sint = streamOf next out n x) :
    vs.length = n := by
  rw [← List.length_map sint, h, length_streamOf]

end Streams

/-- A faulting transaction returns its code and records it, and the run goes on (R126, R129). -/
theorem runTransactions_cons_error {W : Nat} {cmd : CmdWord} {i : Instr} {d : Word W} {r : Regs W} {f : Fault}
    (hd : decode cmd = .ok i) (h : effectOf i d r = .error f) (cs : List (CmdWord × Word W)) :
    runTransactions ((cmd, d) :: cs) r =
      ((runTransactions cs (r.recordFault f.code)).1,
        ⟨f.code, 0⟩ :: (runTransactions cs (r.recordFault f.code)).2) := by
  rw [runTransactions, wordEffect_of_decode hd, h]
  rfl

/-! ### The park_miller call (R109) -/

theorem decode_pmStep : decode 0x20000000 = .ok .pmStep := Encoding.decode_word rfl rfl

theorem produces_pmStep (w : Width) :
    Produces (W := w.bits) .pmStep (fun r x => sint r.pmX = x) schrage1 id := by
  rintro d r x rfl
  have hy := ParkMiller.sint_bits_schrage1 w r.pmX
  exact ⟨_, _, rfl, hy, hy⟩

/-- Settles O36: the stream's last state is both the last value returned and what PM_X holds; RES keeps that value. -/
theorem parkMillerCallReturnsItsReferenceList : Obligations.ParkMillerCallReturnsItsReferenceList := by
  intro s seed n d rest htodo
  obtain ⟨r, ys, hsteps, hys, hpmX, hres⟩ := (produces_pmStep s.width).runTransactions
    decode_pmStep (by simp [writtenBy]) n d (r := written s.regs [(.pmX, seed)]) (x := sint seed) rfl
  have hrun := runs_repeat (rest := rest) (by simp [RegName.readOnly]) (by simp [htodo, wrWord_eq]) hsteps
  refine ⟨r, ys, hrun, hys, sint_inj ?pmX, fun hn => ?res⟩
  case pmX =>
    calc sint r.pmX = schrage1^[n] (sint seed) := hpmX
      _ = (ys.map sint).getLast?.getD (sint seed) := by rw [hys, getLast?_streamOf_id]
      _ = sint (ys.getLast?.getD seed) := by rw [List.getLast?_map, Option.getD_map]
  case res =>
    have hlength : ys.length = n := length_of_map_sint hys
    have hne : ys ≠ [] := List.ne_nil_of_length_pos (by omega)
    rw [hres, List.getLast?_eq_some_getLast hne, Option.getD_some]

/-! ### The lecuyer call (R110) -/

/-- The registers hold the two folded streams of the reference function; only a seed's fold does anything, the streams
staying in their ranges (R86, R110). -/
def HoldsStreams {W : Nat} (r : Regs W) (x : Int × Int) : Prop :=
  floorMod (sint r.lecX1) m1 = x.1 ∧ floorMod (sint r.lecX2) m2 = x.2

theorem decode_lecStep : decode 0x30000000 = .ok .lecStep := Encoding.decode_word rfl rfl

theorem produces_lecStep (w : Width) :
    Produces (W := w.bits) .lecStep HoldsStreams lecuyerNext (fun x => floorMod (x.1 - x.2) m1) := by
  rintro d r ⟨x₁, x₂⟩ ⟨rfl, rfl⟩
  obtain ⟨h₁, h₁'⟩ := lecNext1_range (sint r.lecX1)
  obtain ⟨h₂, h₂'⟩ := lecNext2_range (sint r.lecX2)
  obtain ⟨hz, hz'⟩ := lecCombine_range (lecNext1 (sint r.lecX1)) (lecNext2 (sint r.lecX2))
  have hy₁ := sint_bits_small w (by omega) (h₁'.trans (by decide))
  have hy₂ := sint_bits_small w (by omega) (h₂'.trans (by decide))
  have hfold₁ : floorMod (lecNext1 (sint r.lecX1)) m1 = lecNext1 (sint r.lecX1) := by
    rw [floorMod_eq (by decide)]; exact Int.emod_eq_of_lt h₁ h₁'
  have hfold₂ : floorMod (lecNext2 (sint r.lecX2)) m2 = lecNext2 (sint r.lecX2) := by
    rw [floorMod_eq (by decide)]; exact Int.emod_eq_of_lt h₂ h₂'
  refine ⟨_, _, rfl, ⟨?_, ?_⟩, sint_bits_small w (by omega) (hz'.trans (by decide))⟩
  · exact (congrArg (floorMod · m1) hy₁).trans hfold₁
  · exact (congrArg (floorMod · m2) hy₂).trans hfold₂

/-- Settles O39: the seeds as written hold the reference function's folded streams. -/
theorem lecuyerCallReturnsItsReferenceList : Obligations.LecuyerCallReturnsItsReferenceList := by
  intro s seed1 seed2 n d rest htodo
  obtain ⟨r, zs, hsteps, hzs, -, -⟩ := (produces_lecStep s.width).runTransactions
    decode_lecStep (by simp [writtenBy]) n d (r := written s.regs [(.lecX1, seed1), (.lecX2, seed2)])
    (x := (floorMod (sint seed1) m1, floorMod (sint seed2) m2)) ⟨rfl, rfl⟩
  have hrun := runs_repeat (rest := rest) (by simp [RegName.readOnly]) (by simp [htodo, wrWord_eq]) hsteps
  exact ⟨r, zs, hrun, hzs⟩

/-! ### The lcg call (R111) -/

section Lcg
variable {w : Width} {a c m : Word w.bits}

theorem decode_lcgStep : decode 0x40000000 = .ok .lcgStep := Encoding.decode_word rfl rfl

/-- The registers hold the parameters of a congruential stream and its state (R29 to R31). -/
def HoldsLcg {W : Nat} (a c m : Word W) (r : Regs W) (x : Int) : Prop :=
  (r.lcgA = a ∧ r.lcgC = c ∧ r.lcgM = m) ∧ sint r.lcgX = x

theorem produces_lcgStep (hm : 0 < sint m) :
    Produces .lcgStep (HoldsLcg a c m) (lcgNext (sint a) (sint c) (sint m)) id := by
  rintro d r x ⟨⟨rfl, rfl, rfl⟩, rfl⟩
  have hv := Lcg.sint_bits_lcgNext r.lcgM hm (sint r.lcgA) (sint r.lcgC) (sint r.lcgX)
  exact ⟨_, _, Lcg.lcgStepEffect_of_pos hm rfl, ⟨⟨rfl, rfl, rfl⟩, hv⟩, hv⟩

/-- The writes that set the call up (R68, R111). -/
def lcgSetup {W : Nat} (a c m seed : Word W) : List (RegName × Word W) :=
  [(.lcgA, a), (.lcgC, c), (.lcgM, m), (.lcgX, seed)]

theorem holdsLcg_written (q : Regs w.bits) (a c m seed : Word w.bits) :
    HoldsLcg a c m (written q (lcgSetup a c m seed)) (sint seed) :=
  ⟨⟨rfl, rfl, rfl⟩, rfl⟩

/-- Without a positive modulus every LCG_STEP faults LCG_MODULUS, the modulus being kept by the fault (R94, R126). -/
theorem runTransactions_lcgStep_of_nonpos {r : Regs w.bits} (hm : sint r.lcgM ≤ 0) (n : Nat) (d : Word w.bits) :
    ∃ r', runTransactions (List.replicate n (0x40000000, d)) r = (r', List.replicate n ⟨4, 0⟩) := by
  induction n generalizing r with
  | zero => exact ⟨r, rfl⟩
  | succ n ih =>
    have hm' : sint (r.recordFault Fault.lcgModulus.code).lcgM ≤ 0 := by rwa [recordFault_lcgM]
    obtain ⟨r', hrun⟩ := ih hm'
    refine ⟨r', ?_⟩
    rw [List.replicate_succ, runTransactions_cons_error decode_lcgStep (Lcg.lcgStepEffect_of_nonpos hm), hrun]
    rfl

end Lcg

/-- Settles O41: the reference function fails exactly where the modulus written makes every LCG_STEP fault. -/
theorem lcgCallReturnsItsReferenceList : Obligations.LcgCallReturnsItsReferenceList := by
  intro s a c m seed n d rest htodo
  have hcall {r rs} (hsteps : runTransactions (List.replicate n (0x40000000, d))
      (written s.regs (lcgSetup a c m seed)) = (r, rs)) :=
    runs_repeat (rest := rest) (by simp [lcgSetup, RegName.readOnly]) (by simp [htodo, lcgSetup, wrWord_eq]) hsteps
  have hholds := holdsLcg_written (w := s.width) s.regs a c m seed
  rcases le_or_gt (sint m) 0 with hm | hm
  · have hnone : lcg (sint a) (sint c) (sint m) (sint seed) n = none := if_pos hm
    obtain ⟨r, hsteps⟩ := runTransactions_lcgStep_of_nonpos (w := s.width)
      (r := written s.regs (lcgSetup a c m seed)) hm n d
    refine ⟨r, List.replicate n ⟨4, 0⟩, hcall hsteps, List.length_replicate, fun vs hvs => ?_,
      fun _ x hx => List.eq_of_mem_replicate hx⟩
    cases hnone.symm.trans hvs
  · obtain ⟨r, xs, hsteps, hxs, -, -⟩ :=
      (produces_lcgStep hm).runTransactions decode_lcgStep (by simp [writtenBy]) n d hholds
    have hsome : lcg (sint a) (sint c) (sint m) (sint seed) n = some (xs.map sint) := by
      rw [hxs]
      exact if_neg (not_le.mpr hm)
    refine ⟨r, xs.map fun v => ⟨0, v⟩, hcall hsteps, by rw [List.length_map, length_of_map_sint hxs],
      fun vs hvs => ⟨by simp, ?_⟩, fun hnone => ?_⟩
    · cases hsome.symm.trans hvs
      rw [List.map_map]
      rfl
    · cases hsome.symm.trans hnone

/-! ### The bbs call and the resumed stream (R112, R115) -/

section Bbs
variable {w : Width} {r : Regs w.bits} {m x : Int}

theorem decode_bbsInit : decode 0x50000000 = .ok .bbsInit := Encoding.decode_word rfl rfl

theorem decode_bbsNext : decode 0x60000000 = .ok .bbsNext := Encoding.decode_word rfl rfl

/-- The iterator is IDLE with this modulus and this state: all that BBS_NEXT reads (R104). -/
structure Idle {W : Nat} (m : Int) (r : Regs W) (x : Int) : Prop where
  modulus : sint r.bbsM = m
  state : sint r.bbsX = x
  unarmed : r.armed = false

/-- Past its checks, BBS_INIT leaves the iterator IDLE at the squared seed (R96). -/
theorem bbsInitEffect_idle (hne : sint r.bbsP ≠ sint r.bbsQ) (hpos : 0 < sint r.bbsP * sint r.bbsQ)
    (hcap : sint r.bbsP * sint r.bbsQ < 2 ^ (w.bits - 1)) :
    ∃ r', bbsInitEffect r = .ok (r', 0) ∧
      Idle (sint r.bbsP * sint r.bbsQ) r' (bbsSquare (sint r.bbsP * sint r.bbsQ) (sint r.bbsX)) := by
  obtain ⟨h₀, hlt⟩ := bbsSquare_range (x := sint r.bbsX) hpos
  refine ⟨_, bbsInitEffect_of_fits hne hpos hcap, ?_, ?_, ?_⟩
  · exact Invariant.sint_bits_of_nonneg hpos.le hcap
  · exact Invariant.sint_bits_of_nonneg h₀ (hlt.trans hcap)
  · exact armed_setArmed _ (Status.width_gt_four w) false

theorem bbsInitEffect_of_invalid (h : sint r.bbsP = sint r.bbsQ ∨ sint r.bbsP * sint r.bbsQ ≤ 0) :
    ∃ f : Fault, bbsInitEffect r = .error f ∧ (f.code = 5 ∨ f.code = 6) := by
  by_cases heq : sint r.bbsP = sint r.bbsQ
  · exact ⟨.bbsEqualPrimes, bbsInitEffect_of_equal heq, .inl rfl⟩
  · exact ⟨.bbsModulus, bbsInitEffect_of_nonpos heq (h.resolve_left heq), .inr rfl⟩

/-- In state IDLE BBS_NEXT is a function of the modulus and the state: its value and its next state are those of the
reference function, and the iterator is IDLE again (R104, R112). -/
theorem bbsNextEffect_idle (hm : 0 < m) (h : Idle m r x) :
    ∃ r', bbsNextEffect r = .ok (r', bits w.bits (bbsValue m x).2) ∧ Idle m r' (bbsValue m x).1 ∧
      sint (bits w.bits (bbsValue m x).2) = (bbsValue m x).2 := by
  obtain ⟨rfl, rfl, harmed⟩ := h
  exact ⟨afterNext r, bbsNextEffect_of_idle hm harmed, ⟨rfl, sint_bits_nextValue_state hm, harmed⟩,
    sint_bits_nextValue_out r⟩

theorem exec_bbsNext_idle {s : State} (hm : 0 < m) (h : Idle m s.regs x) :
    ∃ r, exec .bbsNext s = .next (s.ended r 0 (bits s.W (bbsValue m x).2)) ∧ sint r.bbsX = (bbsValue m x).1 := by
  obtain ⟨r, heffect, hr, -⟩ := bbsNextEffect_idle (w := s.width) hm h
  exact ⟨r, exec_ok (i := .bbsNext) heffect, hr.state⟩

theorem produces_bbsNext (w : Width) (hm : 0 < m) :
    Produces (W := w.bits) .bbsNext (fun r (x : Int × Int) => Idle m r x.1) (fun x => bbsValue m x.1)
      fun x => x.2 := by
  intro d r x hr
  obtain ⟨r', heffect, hr', hv⟩ := bbsNextEffect_idle hm hr
  exact ⟨r', _, heffect, hr', hv⟩

/-- The writes that set the call up (R68, R112). -/
def bbsSetup {W : Nat} (p q seed : Word W) : List (RegName × Word W) := [(.bbsP, p), (.bbsQ, q), (.bbsX, seed)]

theorem bbsSetup_readWrite {W : Nat} (p q seed : Word W) : ∀ e ∈ bbsSetup p q seed, e.1.readOnly = false := by
  simp [bbsSetup, RegName.readOnly]

end Bbs

/-- Settles O49: where the reference function has a value, BBS_INIT passes its checks and leaves that function's first
state; where it has none, BBS_INIT faults. -/
theorem bbsCallReturnsItsReferenceList : Obligations.BbsCallReturnsItsReferenceList := by
  intro s p q seed n d rest htodo
  have hrw := bbsSetup_readWrite p q seed
  by_cases hinvalid : sint p = sint q ∨ sint p * sint q ≤ 0
  case pos =>
    have hnone : bbs (sint p) (sint q) (sint seed) n = none := if_pos hinvalid
    refine ⟨fun vs hvs _ => ?_, fun _ => ?_⟩
    · cases hnone.symm.trans hvs
    · obtain ⟨f, hinit, hcode⟩ :=
        bbsInitEffect_of_invalid (w := s.width) (r := written s.regs (bbsSetup p q seed)) hinvalid
      have hrun := runs_call (rest := List.replicate n (.transaction 0x60000000 d) ++ rest) hrw
        (by simp [htodo, bbsSetup, wrWord_eq]) (runTransactions_cons_error (d := d) decode_bbsInit hinit [])
      exact ⟨_, f.code, hcode, hrun⟩
  case neg =>
    have hsome : bbs (sint p) (sint q) (sint seed) n = some _ := if_neg hinvalid
    obtain ⟨hne, hnonpos⟩ := not_or.mp hinvalid
    have hpos : 0 < sint p * sint q := not_le.mp hnonpos
    refine ⟨fun vs hvs hcap => ?_, fun hnone => ?_⟩
    · obtain ⟨r₀, hinit, hidle⟩ :=
        bbsInitEffect_idle (w := s.width) (r := written s.regs (bbsSetup p q seed)) hne hpos hcap
      obtain ⟨r, zs, hsteps, hzs, -, -⟩ := (produces_bbsNext s.width hpos).runTransactions
        decode_bbsNext (by simp [writtenBy]) n d (x := (bbsSquare (sint p * sint q) (sint seed), 0)) hidle
      have hcs := runTransactions_cons_ok (d := d) decode_bbsInit hinit (List.replicate n (0x60000000, d))
      rw [hsteps] at hcs
      have hrun := runs_call (rest := rest) hrw (by simp [htodo, bbsSetup, wrWord_eq]) hcs
      rw [List.length_cons, List.length_replicate] at hrun
      exact ⟨r, zs, hrun, hzs.trans (Option.some.inj (hsome.symm.trans hvs))⟩
    · cases hsome.symm.trans hnone

/-- Settles O50: both register files are IDLE with the same modulus and state, which is all that BBS_NEXT reads. -/
theorem savedBbsStreamIsResumed : Obligations.SavedBbsStreamIsResumed := by
  intro s p q d old rest hne hpos hmodulus harmed htodo
  have hcap : sint p * sint q < 2 ^ (s.W - 1) := hmodulus ▸ sint_lt old.bbsM
  obtain ⟨r₀, hinit, hidle⟩ := bbsInitEffect_idle (w := s.width) (r := written s.regs [(.bbsP, p), (.bbsQ, q)])
    hne hpos hcap
  have hcs := runTransactions_cons_ok (d := d) decode_bbsInit hinit (writes [(.bbsX, old.bbsX)])
  rw [runTransactions_writes (by simp [RegName.readOnly])] at hcs
  have hrun := runs_call (rest := rest) (by simp [RegName.readOnly]) (by simp [htodo, wrWord_eq]) hcs
  have hsuspended : Idle (sint p * sint q) old (sint old.bbsX) := ⟨hmodulus, rfl, harmed⟩
  have hresumed : Idle (sint p * sint q) (r₀.write .bbsX old.bbsX) (sint old.bbsX) :=
    ⟨hidle.modulus, rfl, hidle.unarmed⟩
  obtain ⟨r₁, hexec₁, hr₁⟩ := exec_bbsNext_idle (s := { s with regs := old }) hpos hsuspended
  obtain ⟨r₂, hexec₂, hr₂⟩ := exec_bbsNext_idle (s := { s with regs := r₀.write .bbsX old.bbsX }) hpos hresumed
  exact ⟨r₀.write .bbsX old.bbsX, r₁, r₂, _, hrun, hexec₁, hexec₂, sint_inj (hr₁.trans hr₂.symm)⟩

end Sys2Proof.Proofs.Calls

/-! ## Proofs: faults (60_exceptions.md R124 to R142) -/

namespace Sys2Proof.Proofs.Exceptions

open Sys2Proof Sys2Proof.Machine Sys2Proof.Config Sys2Proof.Proofs.Effects Sys2Proof.Proofs.Status
open Sys2Proof.Proofs.Encoding Sys2Proof.Proofs.HostAccess Sys2Proof.Proofs.Engines

/-! ### The response code of each command (R122, R124) -/

section Codes
variable {W : Nat} (r : Regs W)

/-- One check of a command: its fault's code where its condition holds, else the code of what follows. -/
theorem effectCode_check (c : Prop) [Decidable c] (f : Fault) (e : Effect W) :
    effectCode (if c then .error f else e) = if c then f.code else effectCode e :=
  apply_ite effectCode c _ _

/-- The register map leaves out only the index 0x03 and those from 0x12 up (R19). -/
theorem exists_index_eq {reg : Nat} (h : ¬ (reg = 0x03 ∨ 0x12 ≤ reg)) : ∃ n : RegName, n.index = reg := by
  have hmap : ∀ k < 0x12, k ≠ 0x03 → ∃ n ∈ registerMap, n.index = k := by decide
  obtain ⟨n, -, hn⟩ := hmap reg (by omega) (by omega)
  exact ⟨n, hn⟩

theorem index_mem_readOnly_iff (n : RegName) :
    n.index ∈ [0x00, 0x01, 0x02, 0x0E, 0x0F, 0x10, 0x11] ↔ n.readOnly = true := by
  cases n <;> decide

theorem effectCode_rd (reg : Nat) :
    effectCode (rdEffect reg r) = if reg = 0x03 ∨ 0x12 ≤ reg then 2 else 0 := by
  by_cases h : reg = 0x03 ∨ 0x12 ≤ reg
  · rw [if_pos h, rdEffect, ofIndex_eq_none h]; rfl
  · obtain ⟨n, rfl⟩ := exists_index_eq h
    rw [if_neg h, rdEffect, ofIndex_index]; rfl

theorem effectCode_wr (reg : Nat) (d : Word W) :
    effectCode (wrEffect reg d r) =
      if reg = 0x03 ∨ 0x12 ≤ reg then 2
      else if reg ∈ [0x00, 0x01, 0x02, 0x0E, 0x0F, 0x10, 0x11] then 3 else 0 := by
  by_cases h : reg = 0x03 ∨ 0x12 ≤ reg
  · rw [if_pos h, wrEffect, ofIndex_eq_none h]; rfl
  · obtain ⟨n, rfl⟩ := exists_index_eq h
    simp only [if_neg h, wrEffect, ofIndex_index, index_mem_readOnly_iff]
    exact effectCode_check _ _ _

theorem effectCode_lcgStep : effectCode (lcgStepEffect r) = if sint r.lcgM ≤ 0 then 4 else 0 :=
  effectCode_check _ _ _

theorem effectCode_bbsInit :
    effectCode (bbsInitEffect r) =
      if sint r.bbsP = sint r.bbsQ then 5
      else if sint r.bbsP * sint r.bbsQ ≤ 0 then 6
      else if 2 ^ (W - 1) ≤ sint r.bbsP * sint r.bbsQ then 7
      else 0 := by
  simp only [bbsInitEffect, effectCode_check, ge_iff_le, Nat.cast_pow, Nat.cast_ofNat]
  rfl

theorem effectCode_bbsDraw :
    effectCode (bbsDrawEffect r) = if sint r.bbsM ≤ 0 then 8 else if r.armed = true then 9 else 0 := by
  simp only [bbsDrawEffect, effectCode_check]
  rfl

theorem effectCode_bbsBit :
    effectCode (bbsBitEffect r) =
      if sint r.bbsM ≤ 0 then 8 else if r.armed = false ∨ sint r.bbsCnt = 0 then 9 else 0 := by
  simp only [bbsBitEffect, effectCode_check]
  rfl

theorem effectCode_bbsEmit :
    effectCode (bbsEmitEffect r) = if r.armed = false ∨ sint r.bbsCnt ≠ 0 then 9 else 0 :=
  effectCode_check _ _ _

theorem effectCode_bbsNext :
    effectCode (bbsNextEffect r) = if sint r.bbsM ≤ 0 then 8 else if r.armed = true then 9 else 0 := by
  simp only [bbsNextEffect, effectCode_check]
  rfl

/-- Each command makes its checks in the order of R124. -/
theorem effectCode_effectOf {cmd : CmdWord} {i : Instr} (hd : decode cmd = .ok i) (d : Word W) :
    effectCode (effectOf i d r) = responseCode r cmd := by
  rw [responseCode, hd]
  cases i with
  | nop => rfl
  | rd reg => exact effectCode_rd r reg
  | wr reg => exact effectCode_wr r reg d
  | clrErr => rfl
  | pmStep => rfl
  | lecStep => rfl
  | lcgStep => exact effectCode_lcgStep r
  | bbsInit => exact effectCode_bbsInit r
  | bbsDraw => exact effectCode_bbsDraw r
  | bbsBit => exact effectCode_bbsBit r
  | bbsEmit => exact effectCode_bbsEmit r
  | bbsNext => exact effectCode_bbsNext r

/-- The code of a transaction: an illegal word is the first condition, then come its command's checks (R124). -/
theorem effectCode_wordEffect (cmd : CmdWord) (d : Word W) : effectCode (wordEffect cmd d r) = responseCode r cmd := by
  cases hd : decode cmd with
  | error e => rw [wordEffect, responseCode, hd]; rfl
  | ok i => rw [wordEffect_of_decode hd, effectCode_effectOf r hd]

/-- No condition of R124 reads STATUS.ERR, the only field that a recorded fault changes. -/
theorem responseCode_recordFault (c : RespCode) (cmd : CmdWord) :
    responseCode (r.recordFault c) cmd = responseCode r cmd := by
  simp only [responseCode, recordFault_lcgM, recordFault_bbsP, recordFault_bbsQ, recordFault_bbsM, recordFault_bbsCnt,
    armed_recordFault]

theorem eq_error_of_effectCode {e : Effect W} {f : Fault} (h : effectCode e = f.code) : e = .error f := by
  cases e with
  | ok x => exact absurd h.symm (Fault.code_range f).1
  | error g => rw [Fault.code_injective g f h]

/-- A transaction that faults still faults once its fault is recorded (R138). -/
theorem wordEffect_recordFault {cmd : CmdWord} {d : Word W} {f : Fault} (h : wordEffect cmd d r = .error f)
    (c : RespCode) : wordEffect cmd d (r.recordFault c) = .error f := by
  apply eq_error_of_effectCode
  rw [effectCode_wordEffect, responseCode_recordFault, ← effectCode_wordEffect r cmd d, h, effectCode_error]

end Codes

/-- Settles O10: the step ends its transaction with the code of the effect, which is `responseCode`. -/
theorem firstConditionInPriorityOrderIsReported : Obligations.FirstConditionInPriorityOrderIsReported := by
  intro s cmd d rest htodo
  rw [step_transaction s d htodo, conclude_ended, effectCode_wordEffect]
  exact ⟨_, _, rfl⟩

/-- Settles O9: a fault's registers are `recordFault` of those before it. -/
theorem faultsArePrecise : Obligations.FaultsArePrecise := by
  intro s cmd d rest htodo
  obtain ⟨f, -, h⟩ | ⟨i, x, -, -, h⟩ := transaction_cases htodo
  · exact ⟨_, _, _, h, fun _ => ⟨rfl, err_recordFault _ (width_gt_four s.width).le _,
      fun _ hk => recordFault_getLsbD _ _ hk, recordFault_frame _ _⟩⟩
  · exact ⟨_, _, _, h, fun h0 => absurd rfl h0⟩

/-- Settles O13: the second transaction meets the registers of the first with the fault recorded. -/
theorem faultsAreNotTransient : Obligations.FaultsAreNotTransient := by
  intro s cmd d rest htodo
  obtain ⟨f, hf, h⟩ | ⟨i, x, -, -, h⟩ := transaction_cases htodo
  · have hnext : (s.ended (s.regs.recordFault f.code) f.code 0).todo = .transaction cmd d :: rest := by simp [htodo]
    have hagain := step_transaction (s.ended (s.regs.recordFault f.code) f.code 0) d hnext
    rw [wordEffect_recordFault s.regs hf, conclude_ended] at hagain
    exact ⟨_, _, _, h, fun _ => ⟨recordFault_frame _ _, _, hagain⟩⟩
  · exact ⟨_, _, _, h, fun h0 => absurd rfl h0⟩

/-! ### A batch of transactions and its first fault (R139) -/

section Batch
variable {W : Nat}

/-- The first non-zero response of a batch, 0 where there is none. -/
def firstFault (rs : List (Response W)) : RespCode := ((rs.map Response.resp).find? (· ≠ 0)).getD 0

@[simp] theorem firstFault_nil : firstFault ([] : List (Response W)) = 0 := rfl

theorem firstFault_cons (x : Response W) (rs : List (Response W)) :
    firstFault (x :: rs) = if x.resp = 0 then firstFault rs else x.resp := by
  rw [firstFault, List.map_cons]
  by_cases h : x.resp = 0
  · rw [List.find?_cons_of_neg (by simpa using h), if_pos h]; rfl
  · rw [List.find?_cons_of_pos (by simpa using h), if_neg h]; rfl

theorem firstFault_eq_zero_iff (rs : List (Response W)) : firstFault rs = 0 ↔ ∀ x ∈ rs, x.resp = 0 := by
  induction rs with
  | nil => simp
  | cons x rs ih =>
    rw [firstFault_cons, List.forall_mem_cons, ← ih]
    by_cases h : x.resp = 0 <;> simp only [h, ↓reduceIte, true_and, false_and]

theorem length_runTransactions (cs : List (CmdWord × Word W)) (r : Regs W) :
    (runTransactions cs r).2.length = cs.length := by
  induction cs generalizing r with
  | nil => rfl
  | cons c cs ih => simp [runTransactions, ih]

/-- ERR after a transaction that is no CLR_ERR: the code where ERR was 0, else as it was (R22). -/
theorem err_effectRegs (hW : 4 ≤ W) {cmd : CmdWord} (hclr : decode cmd ≠ .ok .clrErr) (d : Word W) (r : Regs W) :
    (effectRegs r (wordEffect cmd d r)).err = if r.err = 0 then effectCode (wordEffect cmd d r) else r.err := by
  cases he : wordEffect cmd d r with
  | error f => exact err_recordFault r hW _
  | ok x =>
    obtain ⟨i, hd, hx⟩ := wordEffect_ok he
    have herr : x.1.err = r.err := effectOf_err hx (by rintro rfl; exact hclr hd)
    rw [effectRegs_ok, effectCode_ok, herr, eq_comm, ite_eq_right_iff]
    exact Eq.symm

/-- Through a batch with no CLR_ERR in it a code in ERR is kept, and a clear ERR takes the first fault (R22, R139). -/
theorem err_runTransactions (hW : 4 ≤ W) {cs : List (CmdWord × Word W)}
    (hclr : ∀ c ∈ cs, decode c.1 ≠ .ok .clrErr) (r : Regs W) :
    (runTransactions cs r).1.err = if r.err = 0 then firstFault (runTransactions cs r).2 else r.err := by
  induction cs generalizing r with
  | nil => by_cases h : r.err = 0 <;> simp [h]
  | cons c cs ih =>
    obtain ⟨hc, hcs⟩ := List.forall_mem_cons.mp hclr
    simp only [runTransactions, ih hcs, err_effectRegs hW hc, firstFault_cons]
    by_cases h : r.err = 0 <;> simp only [h, ↓reduceIte]

/-- A batch begun by CLR_ERR runs on from a clear ERR, whatever stood there (R79, R139). -/
theorem err_runTransactions_clrErr (hW : 4 ≤ W) {c : CmdWord × Word W} {cs : List (CmdWord × Word W)}
    (hc : decode c.1 = .ok .clrErr) (hclr : ∀ c ∈ cs, decode c.1 ≠ .ok .clrErr) (r : Regs W) :
    (runTransactions (c :: cs) r).1.err = firstFault (runTransactions (c :: cs) r).2 := by
  have heffect : wordEffect c.1 c.2 r = .ok (r.setErr 0, 0) := wordEffect_of_decode hc _ _
  simp [runTransactions, heffect, err_runTransactions hW hclr, firstFault_cons, err_setErr _ hW]

/-- Both ways for a batch to begin: with ERR clear, or with a CLR_ERR (R139). -/
theorem err_runTransactions_batch (hW : 4 ≤ W) {cs : List (CmdWord × Word W)} {r : Regs W}
    (htail : ∀ c ∈ cs.tail, decode c.1 ≠ .ok .clrErr)
    (hstart : r.err = 0 ∨ ∃ c, cs.head? = some c ∧ decode c.1 = .ok .clrErr) :
    (runTransactions cs r).1.err = firstFault (runTransactions cs r).2 := by
  cases cs with
  | nil => simpa using hstart
  | cons c cs =>
    by_cases hc : decode c.1 = .ok .clrErr
    · exact err_runTransactions_clrErr hW hc htail r
    · have herr : r.err = 0 := by simpa [hc] using hstart
      have hclr : ∀ c' ∈ c :: cs, decode c'.1 ≠ .ok .clrErr := List.forall_mem_cons.mpr ⟨hc, htail⟩
      rw [err_runTransactions hW hclr, if_pos herr]

end Batch

/-- Settles O14: the batch is run on the registers, where ERR ends as the first fault among the responses. -/
theorem oneStatusReadChecksABatch : Obligations.OneStatusReadChecksABatch := by
  intro s cs rest htodo htail hstart
  have herr := err_runTransactions_batch (width_gt_four s.width).le htail hstart
  refine ⟨_, _, runs_transactions s cs rest htodo, length_runTransactions cs s.regs, herr, ?_⟩
  rw [herr, firstFault_eq_zero_iff]

/-! ### Register files that differ only in STATUS.ERR (R129) -/

section Sticky
variable {W : Nat} {r q : Regs W} {i : Instr} {d : Word W} {x y : Regs W × Word W}

/-- The files have every register but STATUS in common, and STATUS.BBS_ARMED too. -/
def SameButErr (r q : Regs W) : Prop := q = { r with status := q.status } ∧ q.armed = r.armed

theorem sameButErr_setErr (r : Regs W) (c : RespCode) : SameButErr r (r.setErr c) := ⟨rfl, armed_setErr r c⟩

theorem sameButErr_recordFault (r : Regs W) (c : RespCode) : SameButErr r (r.recordFault c) :=
  ⟨recordFault_frame r c, armed_recordFault r c⟩

/-- The engines' groups, with BBS_ARMED, and RES are all that is stored beside the rest of STATUS (R19, R42). -/
theorem sameButErr_iff_agree : SameButErr r q ↔ (∀ e : Engine, e.Agree r q) ∧ r.res = q.res := by
  constructor
  · rintro ⟨hq, harmed⟩
    rw [hq] at harmed ⊢
    refine ⟨fun e => ?_, rfl⟩
    cases e with
    | parkMiller => exact agree_parkMiller_iff.mpr rfl
    | lecuyer => exact agree_lecuyer_iff.mpr ⟨rfl, rfl⟩
    | lcg => exact agree_lcg_iff.mpr ⟨rfl, rfl, rfl, rfl⟩
    | bbs => exact agree_bbs_iff.mpr ⟨⟨rfl, rfl, rfl, rfl, rfl, rfl, rfl⟩, harmed.symm⟩
  · rintro ⟨hagree, hres⟩
    have hpm := agree_parkMiller_iff.mp (hagree .parkMiller)
    obtain ⟨hx₁, hx₂⟩ := agree_lecuyer_iff.mp (hagree .lecuyer)
    obtain ⟨ha, hc, hm, hx⟩ := agree_lcg_iff.mp (hagree .lcg)
    obtain ⟨⟨hp, hq, hbx, hbm, hacc, hcnt, hlen⟩, harmed⟩ := agree_bbs_iff.mp (hagree .bbs)
    refine ⟨?_, harmed.symm⟩
    rw [hpm, hx₁, hx₂, ha, hc, hm, hx, hp, hq, hbx, hbm, hacc, hcnt, hlen, hres]

theorem sameButErr_symm (h : SameButErr r q) : SameButErr q r := by
  rw [sameButErr_iff_agree] at h ⊢
  exact ⟨fun e => agree_symm (h.1 e), h.2.symm⟩

theorem sameButErr_trans {u : Regs W} (h : SameButErr r q) (h' : SameButErr q u) : SameButErr r u := by
  rw [sameButErr_iff_agree] at h h' ⊢
  exact ⟨fun e => agree_trans (h.1 e) (h'.1 e), h.2.trans h'.2⟩

theorem sameButErr_read (h : SameButErr r q) {n : RegName} (hn : n ≠ .status) : r.read n = q.read n := by
  obtain ⟨hq, -⟩ := h
  rw [hq]
  cases n with
  | status => exact absurd rfl hn
  | _ => rfl

/-- No host write reaches STATUS (R78). -/
theorem write_withStatus (r : Regs W) (st : Word W) (n : RegName) (v : Word W) :
    Regs.write { r with status := st } n v = { r.write n v with status := st } := by
  cases n <;> rfl

theorem sameButErr_write (h : SameButErr r q) (n : RegName) (v : Word W) :
    SameButErr (r.write n v) (q.write n v) := by
  obtain ⟨hq, harmed⟩ := h
  constructor
  · rw [write_status, ← write_withStatus, ← hq]
  · rw [armed_congr (write_status n v), harmed, armed_congr (write_status n v)]

/-- A transaction does the same from both files: the same fault, or the same `dout` and files still the same but for
ERR. -/
def SameEffect (a b : Effect W) : Prop :=
  (∃ f, a = .error f ∧ b = .error f) ∨ (∃ x y, a = .ok x ∧ b = .ok y ∧ x.2 = y.2 ∧ SameButErr x.1 y.1)

/-- An engine's command: its own group and its `dout` by `effectOf_sameOutcome`, the other groups untouched, and RES
either the `dout` or untouched. -/
theorem engine_sameEffect (hW : 4 < W) {e : Engine} (hi : i ∈ e.commands) (h : SameButErr r q) :
    SameEffect (effectOf i d r) (effectOf i d q) := by
  obtain ⟨hagree, hres⟩ := sameButErr_iff_agree.mp h
  obtain herror | ⟨x, y, hx, hy, hdout, hown⟩ := effectOf_sameOutcome hW hi (hagree e) d d
  · exact .inl herror
  · refine .inr ⟨x, y, hx, hy, hdout, sameButErr_iff_agree.mpr ⟨fun e' => ?group, ?res⟩⟩
    case group =>
      by_cases he : e' = e
      · rw [he]; exact hown
      · exact agree_trans (agree_symm (effectOf_agree_other he hi hx))
          (agree_trans (hagree e') (effectOf_agree_other he hi hy))
    case res =>
      by_cases hout : i ∈ writtenBy .res
      · rw [effectOf_output hx hout, effectOf_output hy hout, hdout]
      · calc x.1.res = r.res := effectOf_read_frame hx hout
          _ = q.res := hres
          _ = y.1.res := (effectOf_read_frame hy hout).symm

theorem rd_sameEffect (h : SameButErr r q) {reg : Nat} (hreg : reg ≠ 0x00) :
    SameEffect (rdEffect reg r) (rdEffect reg q) := by
  by_cases hbad : reg = 0x03 ∨ 0x12 ≤ reg
  · simp only [rdEffect, ofIndex_eq_none hbad]
    exact .inl ⟨_, rfl, rfl⟩
  · obtain ⟨n, rfl⟩ := exists_index_eq hbad
    have hstatus : n ≠ .status := by rintro rfl; exact hreg rfl
    simp only [rdEffect, ofIndex_index]
    exact .inr ⟨_, _, rfl, rfl, sameButErr_read h hstatus, h⟩

theorem wr_sameEffect (h : SameButErr r q) (reg : Nat) : SameEffect (wrEffect reg d r) (wrEffect reg d q) := by
  by_cases hbad : reg = 0x03 ∨ 0x12 ≤ reg
  · simp only [wrEffect, ofIndex_eq_none hbad]
    exact .inl ⟨_, rfl, rfl⟩
  · obtain ⟨n, rfl⟩ := exists_index_eq hbad
    simp only [wrEffect, ofIndex_index]
    split
    · exact .inl ⟨_, rfl, rfl⟩
    · exact .inr ⟨_, _, rfl, rfl, rfl, sameButErr_write h n d⟩

/-- No command but RD STATUS tells apart two files that are the same but for ERR (R129). -/
theorem effectOf_sameEffect (hW : 4 < W) (h : SameButErr r q) (hi : i ≠ .rd 0x00) :
    SameEffect (effectOf i d r) (effectOf i d q) := by
  cases i with
  | nop => exact .inr ⟨_, _, rfl, rfl, rfl, h⟩
  | rd reg => exact rd_sameEffect h (by rintro rfl; exact hi rfl)
  | wr reg => exact wr_sameEffect h reg
  | clrErr =>
    have hregs : SameButErr (r.setErr 0) (q.setErr 0) :=
      sameButErr_trans (sameButErr_symm (sameButErr_setErr r 0)) (sameButErr_trans h (sameButErr_setErr q 0))
    exact .inr ⟨_, _, rfl, rfl, rfl, hregs⟩
  | pmStep => exact engine_sameEffect hW (e := .parkMiller) (by decide) h
  | lecStep => exact engine_sameEffect hW (e := .lecuyer) (by decide) h
  | lcgStep => exact engine_sameEffect hW (e := .lcg) (by decide) h
  | bbsInit => exact engine_sameEffect hW (e := .bbs) (by decide) h
  | bbsDraw => exact engine_sameEffect hW (e := .bbs) (by decide) h
  | bbsBit => exact engine_sameEffect hW (e := .bbs) (by decide) h
  | bbsEmit => exact engine_sameEffect hW (e := .bbs) (by decide) h
  | bbsNext => exact engine_sameEffect hW (e := .bbs) (by decide) h

theorem wordEffect_sameEffect (hW : 4 < W) (h : SameButErr r q) {cmd : CmdWord} (hcmd : decode cmd ≠ .ok (.rd 0x00)) :
    SameEffect (wordEffect cmd d r) (wordEffect cmd d q) := by
  cases hd : decode cmd with
  | error e => exact .inl ⟨.illegalCommand, by rw [wordEffect, hd], by rw [wordEffect, hd]⟩
  | ok i =>
    rw [wordEffect_of_decode hd, wordEffect_of_decode hd]
    exact effectOf_sameEffect hW h (by rintro rfl; exact hcmd hd)

end Sticky

/-- Settles O15: the two files are the same but for ERR, and so are the files that the transaction leaves. -/
theorem stickyErrorBlocksNoCommand : Obligations.StickyErrorBlocksNoCommand := by
  intro s cmd d rest c htodo hcmd
  have hsame : SameButErr s.regs (s.regs.setErr c) := sameButErr_setErr s.regs c
  have hstep := step_transaction s d htodo
  have hstep' := step_transaction { s with regs := s.regs.setErr c } d htodo
  obtain ⟨f, hf, hf'⟩ | ⟨x, y, hx, hy, hdout, hregs⟩ := wordEffect_sameEffect (width_gt_four s.width) hsame hcmd
  · rw [hf] at hstep
    rw [hf'] at hstep'
    refine ⟨_, _, _, _, hstep, hstep', ?_⟩
    exact sameButErr_trans (sameButErr_symm (sameButErr_recordFault _ _))
      (sameButErr_trans hsame (sameButErr_recordFault _ _))
  · rw [hx] at hstep
    rw [hy, conclude_ok, ← hdout] at hstep'
    exact ⟨_, _, _, _, hstep, hstep', hregs⟩

end Sys2Proof.Proofs.Exceptions

/-! ## Proofs: reset, completion and read-back (70_reset_and_hazards.md R144 to R159) -/

namespace Sys2Proof.Proofs.Reset

open Sys2Proof Sys2Proof.Machine Sys2Proof.Config Sys2Proof.Proofs.Effects

/-! ### Completion -/

/-- Each form of the host's next move has a next state; a fault is one of the transaction's responses (R128, R141). -/
theorem exists_step_next (s : State) : ∃ t, step s = .next t := by
  cases htodo : s.todo with
  | nil => exact ⟨_, step_nil s htodo⟩
  | cons move rest =>
    cases move with
    | reset => exact ⟨_, step_reset s htodo⟩
    | transaction cmd d => exact ⟨_, step_transaction s d htodo⟩

/-- Settles O8: a transaction is its effect concluded, which takes one move off and puts one response on. -/
theorem everyTransactionCompletes : Obligations.EveryTransactionCompletes := by
  refine ⟨exists_step_next, fun s cmd d rest htodo => ?_⟩
  have hstep := step_transaction s d htodo
  rw [conclude_ended] at hstep
  exact ⟨_, _, _, hstep, congrArg List.tail htodo, List.length_append⟩

/-! ### The reset registers (R144) -/

section Registers
variable {W : Nat}

theorem read_reset {n : RegName} (hn : n ≠ .id) : (Regs.reset W).read n = 0 := by
  cases n with
  | id => exact absurd rfl hn
  | _ => rfl

/-- The recurrence of PM_STEP has 0 as a fixed point (R146). -/
theorem pmStepEffect_reset : pmStepEffect (Regs.reset W) = .ok (Regs.reset W, 0) := by
  have hzero : schrage1 0 = 0 := by decide
  simp [pmStepEffect, Regs.reset, hzero]

/-- Both streams of LEC_STEP have 0 as a fixed point, and 0 is their combination (R146). -/
theorem lecStepEffect_reset : lecStepEffect (Regs.reset W) = .ok (Regs.reset W, 0) := by
  have hzero₁ : lecNext1 0 = 0 := by decide
  have hzero₂ : lecNext2 0 = 0 := by decide
  have hzero : lecCombine 0 0 = 0 := by decide
  simp [lecStepEffect, Regs.reset, hzero₁, hzero₂, hzero]

end Registers

/-- Settles O25: the registers are 0 as given and ID is computed; the invariant is that of all-zero registers. -/
theorem resetZeroesEveryRegisterButId : Obligations.ResetZeroesEveryRegisterButId := by
  refine ⟨fun _ _ => read_reset, fun w => ?id, fun _ => Invariant.reset_inv, rfl, fun s rest htodo => ?move⟩
  case id =>
    have hlt : w.bits < 2 ^ 16 := by have := w.le_65535; omega
    exact (Status.idWord_toNat w).trans (Nat.two_pow_add_eq_or_of_lt hlt 1)
  case move =>
    have hstep := HostMoves.step_reset_ranTo htodo
    rwa [State.ranTo, List.append_nil] at hstep

/-! ### Commands that find the reset registers (R146) -/

/-- A command whose effect leaves the reset registers as they are leaves the unit's registers as it found them. -/
theorem exec_of_effect_reset {s : State} (hregs : s.regs = Regs.reset s.W) {i : Instr} {dout : Word s.W}
    (h : effectOf i s.din (Regs.reset s.W) = .ok (Regs.reset s.W, dout)) :
    exec i s = .next (s.ended s.regs 0 dout) := by
  rw [← hregs] at h
  exact exec_ok h

/-- Settles O26: the two generators without a modulus stay at 0, and the guards of the others find the modulus 0, the
iterator IDLE or the factors equal. -/
theorem commandsFromTheResetState : Obligations.CommandsFromTheResetState := by
  intro s (hregs : s.regs = Regs.reset s.W)
  have hlcg : sint s.regs.lcgM ≤ 0 := by rw [hregs]; exact (sint_zero s.W).le
  have hbbs : sint s.regs.bbsM ≤ 0 := by rw [hregs]; exact (sint_zero s.W).le
  have hidle : s.regs.armed = false := by rw [hregs, Status.armed_reset]
  have hequal : sint s.regs.bbsP = sint s.regs.bbsQ := by rw [hregs]; rfl
  refine ⟨?pm, ?lec, ?lcg, ?draw, ?bit, ?next, ?emit, ?init, ?id, ?read⟩
  case pm => exact exec_of_effect_reset hregs pmStepEffect_reset
  case lec => exact exec_of_effect_reset hregs lecStepEffect_reset
  case lcg => exact Lcg.exec_lcgStep_of_nonpos s hlcg
  case draw => exact exec_error (i := .bbsDraw) (f := .bbsNotConfigured) (Bbs.bbsDrawEffect_of_nonpos hbbs)
  case bit => exact exec_error (i := .bbsBit) (f := .bbsNotConfigured) (Bbs.bbsBitEffect_of_nonpos hbbs)
  case next => exact exec_error (i := .bbsNext) (f := .bbsNotConfigured) (Bbs.bbsNextEffect_of_nonpos hbbs)
  case emit => exact exec_error (i := .bbsEmit) (f := .bbsSequence) (Bbs.bbsEmitEffect_of_sequence (.inl hidle))
  case init => exact exec_error (i := .bbsInit) (f := .bbsEqualPrimes) (Bbs.bbsInitEffect_of_equal hequal)
  case id => exact HostAccess.exec_rd_index s .id
  case read =>
    intro reg hlt hid hgap
    obtain ⟨n, rfl⟩ : ∃ n : RegName, n.index = reg := Exceptions.exists_index_eq (by omega)
    have hn : n ≠ .id := by rintro rfl; exact hid rfl
    have hread : s.regs.read n = 0 := by rw [hregs, read_reset hn]
    rw [HostAccess.exec_rd_index, hread]

/-! ### A write and the read behind it (R152) -/

section ReadBack
variable {W : Nat}

theorem read_write_self {n : RegName} (hrw : n.readOnly = false) (r : Regs W) (v : Word W) :
    (r.write n v).read n = v := by
  cases n with
  | status | id | res | bbsM | bbsAcc | bbsCnt | bbsLen => cases hrw
  | _ => rfl

theorem decode_rd_index (n : RegName) : decode (encode (.rd n.index)) = .ok (.rd n.index) :=
  Encoding.decode_encode (by cases n <;> rfl)

theorem rdEffect_index (n : RegName) (r : Regs W) : rdEffect n.index r = .ok (r, r.read n) := by
  rw [rdEffect, HostAccess.ofIndex_index]

/-- WR of a RW register and RD of it leave the written registers, and RD returns the word written. -/
theorem runTransactions_wr_rd {n : RegName} (hrw : n.readOnly = false) (r : Regs W) (v d : Word W) :
    runTransactions [(Calls.wrWord n, v), (encode (.rd n.index), d)] r = (r.write n v, [⟨0, 0⟩, ⟨0, v⟩]) := by
  rw [Bbs.runTransactions_cons_ok (Calls.decode_wrWord n) (Calls.wrEffect_index hrw v r),
    Bbs.runTransactions_cons_ok (decode_rd_index n) (rdEffect_index n _), runTransactions_nil, read_write_self hrw]

/-- The RW indices of R19. -/
theorem exists_readWrite_index {reg : Nat}
    (h : reg ∈ [0x04, 0x05, 0x06, 0x07, 0x08, 0x09, 0x0A, 0x0B, 0x0C, 0x0D]) :
    ∃ n : RegName, n.readOnly = false ∧ n.index = reg := by
  obtain ⟨n, hn, hindex⟩ :=
    List.mem_map.mp (show reg ∈ (HostAccess.registerMap.filter fun n => !n.readOnly).map RegName.index from h)
  exact ⟨n, by simpa using List.of_mem_filter hn, hindex⟩

end ReadBack

/-- Settles O30: the two transactions are run on the registers, where the read finds the word written. -/
theorem writtenValueIsReadBackAtOnce : Obligations.WrittenValueIsReadBackAtOnce := by
  intro s reg v d rest hreg htodo
  obtain ⟨n, hrw, rfl⟩ := exists_readWrite_index hreg
  have hrun := runs_transactions s [(Calls.wrWord n, v), (encode (.rd n.index), d)] rest htodo
  rw [runTransactions_wr_rd hrw] at hrun
  exact ⟨s.regs.write n v, hrun⟩

end Sys2Proof.Proofs.Reset
